-- ==== Sys2Proof/Word.lean ====
section
/-! DEFINITION. The machine's word types (00_scope.md R5, 10_state.md R8, R10, R11; 30_encoding.md R39). -/

namespace Sys2Proof

/-- A memory byte or a general register: 8 bits, unsigned. -/
abbrev Byte := BitVec 8

/-- A 16-bit value: an instruction word, `pc`, `I`, a return address. -/
abbrev Word := BitVec 16

/-- A 4-bit field of an instruction word. -/
abbrev Nibble := BitVec 4

/-- The 12-bit address field `NNN`. -/
abbrev Addr := BitVec 12

/-- A general register's index, 0 to 15: every index a 4-bit field can form is valid (R8). -/
abbrev Reg := Fin 16

/-- A logical key's index, 0 to 15 (10_state.md R15). -/
abbrev Key := Fin 16

/-- The register used as carry, not-borrow and collision flag (10_state.md R9). -/
abbrev vf : Reg := 15

end Sys2Proof
end

