-- ==== Sys2Proof/Syntax.lean ====
section
/-! DEFINITION. The instructions: one constructor per row of spec/opcode_table.json, in the table's order
(30_encoding.md R41). -/

namespace Sys2Proof

/-- The 35 instructions and the fallback operation `opcode_none`, with the operand fields of R39. -/
inductive Instr where
  /-- `00E0` clear the framebuffer. -/
  | cls
  /-- `00EE` return. -/
  | ret
  /-- `0NNN` indirect jump through memory. -/
  | sys (nnn : Addr)
  /-- `1NNN` jump. -/
  | jp (nnn : Addr)
  /-- `2NNN` call. -/
  | call (nnn : Addr)
  /-- `3XNN` skip if `V[X] = NN`. -/
  | sei (x : Reg) (nn : Byte)
  /-- `4XNN` skip if `V[X] != NN`. -/
  | snei (x : Reg) (nn : Byte)
  /-- `5XY0` skip if `V[X] = V[Y]`. -/
  | ser (x y : Reg)
  /-- `6XNN` load immediate. -/
  | ldi (x : Reg) (nn : Byte)
  /-- `7XNN` add immediate, no flag. -/
  | addi (x : Reg) (nn : Byte)
  /-- `8XY0` copy. -/
  | ldx (x y : Reg)
  /-- `8XY1` or. -/
  | orx (x y : Reg)
  /-- `8XY2` and. -/
  | anx (x y : Reg)
  /-- `8XY3` exclusive or. -/
  | xor (x y : Reg)
  /-- `8XY4` add, carry to VF. -/
  | adc (x y : Reg)
  /-- `8XY5` subtract, not-borrow to VF. -/
  | sub (x y : Reg)
  /-- `8XY6` shift right; the `Y` field is kept and ignored. -/
  | srh (x y : Reg)
  /-- `8XY7` reverse subtract. -/
  | subn (x y : Reg)
  /-- `8XYE` shift left; the `Y` field is kept and ignored. -/
  | shl (x y : Reg)
  /-- `9XY0` skip if `V[X] != V[Y]`. -/
  | sner (x y : Reg)
  /-- `ANNN` load the index register. -/
  | lda (nnn : Addr)
  /-- `BNNN` jump to `NNN + V[0]`. -/
  | jpv0 (nnn : Addr)
  /-- `CXNN` random byte under a mask. -/
  | rnd (x : Reg) (nn : Byte)
  /-- `DXYN` draw a sprite of `N` rows. -/
  | drw (x y : Reg) (n : Nibble)
  /-- `EX9E` skip if the key is pressed, and consume it. -/
  | skp (x : Reg)
  /-- `EXA1` skip if the key is not pressed. -/
  | sknp (x : Reg)
  /-- `FX07` read the delay timer. -/
  | lddt (x : Reg)
  /-- `FX0A` wait for a key. -/
  | wkey (x : Reg)
  /-- `FX15` set the delay timer. -/
  | stdt (x : Reg)
  /-- `FX18` set the sound timer. -/
  | stst (x : Reg)
  /-- `FX1E` add to the index register. -/
  | adda (x : Reg)
  /-- `FX29` point `I` at a font glyph. -/
  | font (x : Reg)
  /-- `FX33` store three decimal digits. -/
  | bcd (x : Reg)
  /-- `FX55` store `V[0..X]`. -/
  | stm (x : Reg)
  /-- `FX65` load `V[0..X]`. -/
  | ldm (x : Reg)
  /-- `opcode_none`: the operation of an unrecognized word (R47), which it carries. -/
  | opcodeNone (w : Word)
  deriving DecidableEq, Repr

end Sys2Proof
end

