-- ==== Sys2Proof/WellFormed.lean ====
section
/-! DEFINITION. The opcode table of 30_encoding.md R41 as data, and which instructions are well formed: those that are the
reading of some word. -/

namespace Sys2Proof

/-- One row of the opcode table: a word matches it when `word & mask = value`, except for the words another row takes. -/
structure OpcodeRow where
  mnemonic : String
  value    : Word
  mask     : Word
  excludes : List Word
  deriving DecidableEq, Repr

/-- "A word matches a row when `opcode & mask = match`" (R41), less the row's exceptions (R42). -/
def OpcodeRow.covers (r : OpcodeRow) (w : Word) : Bool :=
  (w &&& r.mask == r.value) && !(r.excludes.contains w)

/-- Classes 0 to 7 of the table (R41, R42, R43). -/
def opcodeRowsLow : List OpcodeRow :=
  [⟨"CLS", 0x00E0, 0xFFFF, []⟩, ⟨"RET", 0x00EE, 0xFFFF, []⟩, ⟨"SYS", 0x0000, 0xF000, [0x00E0, 0x00EE]⟩,
   ⟨"JP", 0x1000, 0xF000, []⟩, ⟨"CALL", 0x2000, 0xF000, []⟩, ⟨"SEI", 0x3000, 0xF000, []⟩,
   ⟨"SNEI", 0x4000, 0xF000, []⟩, ⟨"SER", 0x5000, 0xF00F, []⟩, ⟨"LDI", 0x6000, 0xF000, []⟩,
   ⟨"ADDI", 0x7000, 0xF000, []⟩]

/-- Class 8 of the table (R44). -/
def opcodeRowsAlu : List OpcodeRow :=
  [⟨"LDX", 0x8000, 0xF00F, []⟩, ⟨"ORX", 0x8001, 0xF00F, []⟩, ⟨"ANX", 0x8002, 0xF00F, []⟩,
   ⟨"XOR", 0x8003, 0xF00F, []⟩, ⟨"ADC", 0x8004, 0xF00F, []⟩, ⟨"SUB", 0x8005, 0xF00F, []⟩,
   ⟨"SRH", 0x8006, 0xF00F, []⟩, ⟨"SUBN", 0x8007, 0xF00F, []⟩, ⟨"SHL", 0x800E, 0xF00F, []⟩]

/-- Classes 9 to E of the table (R41, R43, R45). -/
def opcodeRowsHigh : List OpcodeRow :=
  [⟨"SNER", 0x9000, 0xF00F, []⟩, ⟨"LDA", 0xA000, 0xF000, []⟩, ⟨"JPV0", 0xB000, 0xF000, []⟩,
   ⟨"RND", 0xC000, 0xF000, []⟩, ⟨"DRW", 0xD000, 0xF000, []⟩, ⟨"SKP", 0xE09E, 0xF0FF, []⟩,
   ⟨"SKNP", 0xE0A1, 0xF0FF, []⟩]

/-- Class F of the table (R46). -/
def opcodeRowsF : List OpcodeRow :=
  [⟨"LDDT", 0xF007, 0xF0FF, []⟩, ⟨"WKEY", 0xF00A, 0xF0FF, []⟩, ⟨"STDT", 0xF015, 0xF0FF, []⟩,
   ⟨"STST", 0xF018, 0xF0FF, []⟩, ⟨"ADDA", 0xF01E, 0xF0FF, []⟩, ⟨"FONT", 0xF029, 0xF0FF, []⟩,
   ⟨"BCD", 0xF033, 0xF0FF, []⟩, ⟨"STM", 0xF055, 0xF0FF, []⟩, ⟨"LDM", 0xF065, 0xF0FF, []⟩]

/-- The 35 instruction rows, in the table's order (R41). -/
def opcodeRows : List OpcodeRow := opcodeRowsLow ++ opcodeRowsAlu ++ opcodeRowsHigh ++ opcodeRowsF

/-- Some instruction row takes the word; every other word is unrecognized (R47). -/
def recognized (w : Word) : Bool := opcodeRows.any (·.covers w)

/-- Well formed: `SYS` never carries the two addresses whose words are CLS and RET (R42), and `opcode_none` never carries
a word that is an instruction (R47). Every other field value is a word of the instruction. -/
def Instr.wellFormed : Instr → Bool
  | .cls => true
  | .ret => true
  | .sys nnn => (nnn != 0x0E0#12) && (nnn != 0x0EE#12)
  | .jp _ => true
  | .call _ => true
  | .sei _ _ => true
  | .snei _ _ => true
  | .ser _ _ => true
  | .ldi _ _ => true
  | .addi _ _ => true
  | .ldx _ _ => true
  | .orx _ _ => true
  | .anx _ _ => true
  | .xor _ _ => true
  | .adc _ _ => true
  | .sub _ _ => true
  | .srh _ _ => true
  | .subn _ _ => true
  | .shl _ _ => true
  | .sner _ _ => true
  | .lda _ => true
  | .jpv0 _ => true
  | .rnd _ _ => true
  | .drw _ _ _ => true
  | .skp _ => true
  | .sknp _ => true
  | .lddt _ => true
  | .wkey _ => true
  | .stdt _ => true
  | .stst _ => true
  | .adda _ => true
  | .font _ => true
  | .bcd _ => true
  | .stm _ => true
  | .ldm _ => true
  | .opcodeNone w => !(recognized w)

end Sys2Proof
end

