-- ==== Sys2Proof/Decode.lean ====
section
/-! DEFINITION. The instruction fields, the decoder and the encoder (30_encoding.md R39 to R49; byte order 20_memory.md
R27). -/

namespace Sys2Proof

/-- The class, `opcode[15:12]` (R39). -/
def classOf (w : Word) : Nibble := w.extractLsb' 12 4

/-- The field `X`, `opcode[11:8]`, as a register index (R39). -/
def xOf (w : Word) : Reg := (w.extractLsb' 8 4).toFin

/-- The field `Y`, `opcode[7:4]`, as a register index (R39). -/
def yOf (w : Word) : Reg := (w.extractLsb' 4 4).toFin

/-- The field `N`, `opcode[3:0]` (R39). -/
def nOf (w : Word) : Nibble := w.extractLsb' 0 4

/-- The field `NN`, `opcode[7:0]` (R39). -/
def nnOf (w : Word) : Byte := w.extractLsb' 0 8

/-- The field `NNN`, `opcode[11:0]` (R39). -/
def nnnOf (w : Word) : Addr := w.extractLsb' 0 12

/-- Class 0: CLS and RET are matched on the full word, every other word is SYS (R42). -/
def decodeClass0 (w : Word) : Instr :=
  if w = 0x00E0#16 then .cls
  else if w = 0x00EE#16 then .ret
  else .sys (nnnOf w)

/-- Classes 5 and 9: the low nibble must be 0 (R43). -/
def decodeLowZero (w : Word) (i : Instr) : Instr :=
  if nOf w = 0#4 then i else .opcodeNone w

/-- Class 8: secondary dispatch on the low nibble (R44). -/
def decodeClass8 (w : Word) : Instr :=
  if nOf w = 0x0#4 then .ldx (xOf w) (yOf w)
  else if nOf w = 0x1#4 then .orx (xOf w) (yOf w)
  else if nOf w = 0x2#4 then .anx (xOf w) (yOf w)
  else if nOf w = 0x3#4 then .xor (xOf w) (yOf w)
  else if nOf w = 0x4#4 then .adc (xOf w) (yOf w)
  else if nOf w = 0x5#4 then .sub (xOf w) (yOf w)
  else if nOf w = 0x6#4 then .srh (xOf w) (yOf w)
  else if nOf w = 0x7#4 then .subn (xOf w) (yOf w)
  else if nOf w = 0xE#4 then .shl (xOf w) (yOf w)
  else .opcodeNone w

/-- Class E: secondary dispatch on the low byte (R45). -/
def decodeClassE (w : Word) : Instr :=
  if nnOf w = 0x9E#8 then .skp (xOf w)
  else if nnOf w = 0xA1#8 then .sknp (xOf w)
  else .opcodeNone w

/-- Class F: secondary dispatch on the low byte (R46). -/
def decodeClassF (w : Word) : Instr :=
  if nnOf w = 0x07#8 then .lddt (xOf w)
  else if nnOf w = 0x0A#8 then .wkey (xOf w)
  else if nnOf w = 0x15#8 then .stdt (xOf w)
  else if nnOf w = 0x18#8 then .stst (xOf w)
  else if nnOf w = 0x1E#8 then .adda (xOf w)
  else if nnOf w = 0x29#8 then .font (xOf w)
  else if nnOf w = 0x33#8 then .bcd (xOf w)
  else if nnOf w = 0x55#8 then .stm (xOf w)
  else if nnOf w = 0x65#8 then .ldm (xOf w)
  else .opcodeNone w

/-- `Decode`: total on the 65536 words, first on the class (R41). A word no pattern matches is `opcode_none`, which
carries it (R47). -/
def decode (w : Word) : Instr :=
  if classOf w = 0x0#4 then decodeClass0 w
  else if classOf w = 0x1#4 then .jp (nnnOf w)
  else if classOf w = 0x2#4 then .call (nnnOf w)
  else if classOf w = 0x3#4 then .sei (xOf w) (nnOf w)
  else if classOf w = 0x4#4 then .snei (xOf w) (nnOf w)
  else if classOf w = 0x5#4 then decodeLowZero w (.ser (xOf w) (yOf w))
  else if classOf w = 0x6#4 then .ldi (xOf w) (nnOf w)
  else if classOf w = 0x7#4 then .addi (xOf w) (nnOf w)
  else if classOf w = 0x8#4 then decodeClass8 w
  else if classOf w = 0x9#4 then decodeLowZero w (.sner (xOf w) (yOf w))
  else if classOf w = 0xA#4 then .lda (nnnOf w)
  else if classOf w = 0xB#4 then .jpv0 (nnnOf w)
  else if classOf w = 0xC#4 then .rnd (xOf w) (nnOf w)
  else if classOf w = 0xD#4 then .drw (xOf w) (yOf w) (nOf w)
  else if classOf w = 0xE#4 then decodeClassE w
  else decodeClassF w

/-- Why a list of bytes holds no instruction. -/
inductive DecodeError where
  /-- Fewer than the two bytes of an instruction word (R39). -/
  | truncated
  deriving DecidableEq, Repr

/-- Two bytes make a word, the byte at the lower address in the high half (20_memory.md R27). -/
def wordOfBytes (hi lo : Byte) : Word := hi ++ lo

/-- The byte of a word that lies at the lower address (R27). -/
def highByte (w : Word) : Byte := w.extractLsb' 8 8

/-- The byte of a word that lies at the higher address (R27). -/
def lowByte (w : Word) : Byte := w.extractLsb' 0 8

/-- Decode the first instruction of a list of bytes and give the rest of the list (R39, R49: always two bytes). -/
def decodeBytes : List Byte → Except DecodeError (Instr × List Byte)
  | hi :: lo :: rest => .ok (decode (wordOfBytes hi lo), rest)
  | [_] => .error .truncated
  | [] => .error .truncated

/-- A register index as the 4 bits of its field. -/
def regBits (r : Reg) : Nibble := BitVec.ofFin r

/-- Format F-NNN: `cccc nnnn nnnn nnnn` (R39). -/
def wordNNN (c : Nibble) (nnn : Addr) : Word := c ++ nnn

/-- Formats F-XNN and F-X: `cccc xxxx kkkk kkkk` (R39). -/
def wordXNN (c : Nibble) (x : Reg) (nn : Byte) : Word := c ++ regBits x ++ nn

/-- Formats F-XY and F-XYN: `cccc xxxx yyyy nnnn` (R39). -/
def wordXYN (c : Nibble) (x y : Reg) (n : Nibble) : Word := c ++ regBits x ++ regBits y ++ n

/-- The word of an instruction (R39, R41). -/
def encode : Instr → Word
  | .cls => 0x00E0#16
  | .ret => 0x00EE#16
  | .sys nnn => wordNNN 0x0#4 nnn
  | .jp nnn => wordNNN 0x1#4 nnn
  | .call nnn => wordNNN 0x2#4 nnn
  | .sei x nn => wordXNN 0x3#4 x nn
  | .snei x nn => wordXNN 0x4#4 x nn
  | .ser x y => wordXYN 0x5#4 x y 0x0#4
  | .ldi x nn => wordXNN 0x6#4 x nn
  | .addi x nn => wordXNN 0x7#4 x nn
  | .ldx x y => wordXYN 0x8#4 x y 0x0#4
  | .orx x y => wordXYN 0x8#4 x y 0x1#4
  | .anx x y => wordXYN 0x8#4 x y 0x2#4
  | .xor x y => wordXYN 0x8#4 x y 0x3#4
  | .adc x y => wordXYN 0x8#4 x y 0x4#4
  | .sub x y => wordXYN 0x8#4 x y 0x5#4
  | .srh x y => wordXYN 0x8#4 x y 0x6#4
  | .subn x y => wordXYN 0x8#4 x y 0x7#4
  | .shl x y => wordXYN 0x8#4 x y 0xE#4
  | .sner x y => wordXYN 0x9#4 x y 0x0#4
  | .lda nnn => wordNNN 0xA#4 nnn
  | .jpv0 nnn => wordNNN 0xB#4 nnn
  | .rnd x nn => wordXNN 0xC#4 x nn
  | .drw x y n => wordXYN 0xD#4 x y n
  | .skp x => wordXNN 0xE#4 x 0x9E#8
  | .sknp x => wordXNN 0xE#4 x 0xA1#8
  | .lddt x => wordXNN 0xF#4 x 0x07#8
  | .wkey x => wordXNN 0xF#4 x 0x0A#8
  | .stdt x => wordXNN 0xF#4 x 0x15#8
  | .stst x => wordXNN 0xF#4 x 0x18#8
  | .adda x => wordXNN 0xF#4 x 0x1E#8
  | .font x => wordXNN 0xF#4 x 0x29#8
  | .bcd x => wordXNN 0xF#4 x 0x33#8
  | .stm x => wordXNN 0xF#4 x 0x55#8
  | .ldm x => wordXNN 0xF#4 x 0x65#8
  | .opcodeNone w => w

/-- What each of the 35 rows of `opcodeRows` builds from a word it covers, in the same order (R41). -/
def rowReadings : List (Word → Instr) :=
  [fun _ => .cls, fun _ => .ret, fun w => .sys (nnnOf w), fun w => .jp (nnnOf w), fun w => .call (nnnOf w),
   fun w => .sei (xOf w) (nnOf w), fun w => .snei (xOf w) (nnOf w), fun w => .ser (xOf w) (yOf w),
   fun w => .ldi (xOf w) (nnOf w), fun w => .addi (xOf w) (nnOf w)] ++
  [fun w => .ldx (xOf w) (yOf w), fun w => .orx (xOf w) (yOf w), fun w => .anx (xOf w) (yOf w),
   fun w => .xor (xOf w) (yOf w), fun w => .adc (xOf w) (yOf w), fun w => .sub (xOf w) (yOf w),
   fun w => .srh (xOf w) (yOf w), fun w => .subn (xOf w) (yOf w), fun w => .shl (xOf w) (yOf w)] ++
  [fun w => .sner (xOf w) (yOf w), fun w => .lda (nnnOf w), fun w => .jpv0 (nnnOf w),
   fun w => .rnd (xOf w) (nnOf w), fun w => .drw (xOf w) (yOf w) (nOf w), fun w => .skp (xOf w),
   fun w => .sknp (xOf w)] ++
  [fun w => .lddt (xOf w), fun w => .wkey (xOf w), fun w => .stdt (xOf w), fun w => .stst (xOf w),
   fun w => .adda (xOf w), fun w => .font (xOf w), fun w => .bcd (xOf w), fun w => .stm (xOf w),
   fun w => .ldm (xOf w)]

/-- The same decoding read off the match and mask table: the first row that covers the word, else `opcode_none` (R41).
`decode` is the machine's; that the two agree is a statement of its own. -/
def tableDecode (w : Word) : Instr :=
  match (opcodeRows.zip rowReadings).find? (fun r => r.1.covers w) with
  | some r => r.2 w
  | none => .opcodeNone w

/-- The instruction word that the number `w` of `nbits` bits stands for; the bits above `nbits` are 0. -/
def tableWord (nbits w : Nat) : Word := BitVec.ofNat 16 (w % 2 ^ nbits)

/-- The decoder's reading of a table word, laid out in memory order (R27) and decoded from its bytes. -/
def decodeTableWord (nbits w : Nat) : Option Instr :=
  match decodeBytes [highByte (tableWord nbits w), lowByte (tableWord nbits w)] with
  | .ok (i, _) => some i
  | .error _ => none

end Sys2Proof
end

