-- ==== Sys2Proof/Config.lean ====
section
/-! DEFINITION. What an implementation fixes (00_scope.md R4), the kinds of host event (60_exceptions.md R114), and the two
inputs of the step that are free values: the random byte and the host's next event (10_state.md R20). -/

namespace Sys2Proof

/-- An event `NextEvent()` can hand to a waiting FX0A (60_exceptions.md R114). -/
inductive HostEvent where
  | keyDown (k : Key)
  | quit
  | other
  deriving DecidableEq, Repr, Inhabited

end Sys2Proof

namespace Sys2Proof.Config

/-- `MEM_SIZE`, the number of bytes of memory: 4096 (R4, the spec's decision D1; log entry 10). -/
def memSize : Nat := 4096

/-- `LOAD_OFFSET`, where the ROM image starts and `pc` after reset: 0x200 (R4, the spec's decision D2; log entry 10). -/
def loadOffset : Word := 0x200#16

/-- `STACK_DEPTH`, the call stack's entries (R4). -/
def stackDepth : Nat := 16

/-- `FB_W`, the framebuffer's columns (R4). -/
def fbWidth : Nat := 64

/-- `FB_SIZE`, the framebuffer's cells, 64 * 32 (R4). -/
def fbSize : Nat := 2048

/-- The bytes of one font glyph (R4). -/
def glyphBytes : Nat := 5

/-- The bytes of the font table at address 0 (R4). -/
def fontBytes : Nat := 80

/-- FREE VALUE. `randByte n` is what the environment answers to the n-th `Rand()` (10_state.md R20, 42_immediate.md
R68). It has no body: a statement about it holds for every sequence of draws (log entry 3). -/
opaque randByte : Nat → Byte

/-- FREE VALUE. `hostEvent n` is the n-th event the host supplies to a waiting FX0A beyond those the state lists (60_exceptions.md
R114). It has no body: a statement about it holds for every sequence of events (log entry 1). -/
opaque hostEvent : Nat → HostEvent

end Sys2Proof.Config
end

