-- ==== Sys2Proof/Machine/State.lean ====
section
/-! DEFINITION. The machine's state as plain data (10_state.md), its fault and refusal reasons, and the state after reset
(10_state.md R21, 70_reset_and_hazards.md R117). -/

namespace Sys2Proof.Machine

/-- The runtime faults, causes 3 to 7 of 60_exceptions.md R99. An instruction or the fetch RAISES one and the machine TAKES
it: a next state in HALT (R101, log entry 7). No step answers `Host.Outcome.fault`, so none of them stops a run of the
model. -/
inductive Fault where
  /-- Cause 3, raised by fetch, SYS, DRW, BCD, STM and LDM on an address at or above MEM_SIZE; carries the lowest one.
  Safe: the spec's own fault, taken as the spec says. -/
  | memoryOutOfRange (addr : Nat)
  /-- Cause 4, raised by CALL when the stack holds 16 entries. Safe: the spec's own fault. -/
  | stackOverflow
  /-- Cause 5, raised by RET when the stack is empty. Safe: the spec's own fault. -/
  | stackUnderflow
  /-- Cause 6, raised by DRW on a set sprite bit whose flat index is 2048 or more; carries the index. Safe: the spec's own
  fault. -/
  | framebufferIndexOutOfRange (idx : Nat)
  /-- Cause 7, raised by SKP and SKNP when V[X] is above 15; carries V[X]. Safe: the spec's own fault. -/
  | keyIndexOutOfRange (k : Nat)
  deriving DecidableEq, Repr

/-- Why a step has no meaning. -/
inductive Refusal where
  /-- An arm of `exec` that has no meaning yet (none is left). Safe: the run stops. -/
  | notModelled (mnemonic : String)
  /-- The host's `load` of an image that does not fit in memory (20_memory.md R31, 93 U14). Safe: the run stops. -/
  | loadDoesNotFit
  /-- The host's `load` after the first `update` since reset (60_exceptions.md R113). Safe: the run stops. -/
  | loadAfterStart
  /-- The host's `set_key(n)` with n above 15 (60_exceptions.md R113). Safe: the run stops. -/
  | noSuchKey (n : Nat)
  deriving DecidableEq, Repr

/-- `run_state` (10_state.md R17). -/
inductive RunState where
  | exec
  | pause
  | halt
  deriving DecidableEq, Repr

/-- `halt_cause` (10_state.md R18, 60_exceptions.md R99). -/
inductive HaltCause where
  /-- Code 0: `run_state` is not HALT. -/
  | none
  /-- Code 1: the fetched word matches no pattern. -/
  | decodeFault (opcode : Word)
  /-- Code 2: the host asked. -/
  | quit
  /-- Codes 3 to 7. -/
  | runtime (f : Fault)
  deriving DecidableEq, Repr

/-- A transaction the host performs between cycles (60_exceptions.md R113). -/
inductive HostRequest where
  | update
  | reset
  | load (bytes : List Byte) (offset : Nat)
  | setKey (n : Nat)
  | quit
  | pause
  | resume
  deriving DecidableEq, Repr

/-- The framebuffer: bit `idx` is cell `fb[idx]`, the pixel at column `idx mod 64`, row `idx div 64` (10_state.md R13). A
cell holds only 0 or 1, so one bit holds it; the cells are reached through `fbGet` and `fbFlip` alone (log entry 8). -/
abbrev Framebuffer := BitVec 2048

/-- Memory as the cells that differ from their reset content, addresses strictly rising (log entry 9). -/
abbrev Memory := List Host.Cell

/-- A transaction the core emits (60_exceptions.md R113). -/
inductive Output where
  | displayClear
  | displayDraw (fb : Framebuffer)
  | report (cause : HaltCause)
  deriving DecidableEq, Repr

/-- All the state the spec gives the machine (10_state.md R8 to R19), then the model's own fields. -/
structure State where
  /-- `V[0]` to `V[15]`, `V[0xF]` being the flag (R8, R9). -/
  v : Vector Byte 16
  /-- The index register `I` (R10). -/
  i : Word
  /-- The program counter; during execute, the address of the instruction being executed (R11). -/
  pc : Word
  /-- The call stack's entries (R12). -/
  stack : Vector Word 16
  /-- The next free slot of the call stack, 0 to 16 (R12). -/
  sp : Fin 17
  /-- The framebuffer (R13). -/
  fb : Framebuffer
  /-- The delay timer (R14). -/
  dt : Byte
  /-- The sound timer (R14). -/
  st : Byte
  /-- The key latch (R15). -/
  key : Vector Bool 16
  /-- The run state (R17). -/
  runState : RunState
  /-- Why the machine halted (R18). -/
  haltCause : HaltCause
  /-- The memory store (R19). -/
  mem : Memory
  /-- The output level `awaiting_key`: 1 from the step in which a WKEY begins to wait to the step in which its wait ends
  (45_keys.md R87, 60_exceptions.md R113; log entry 5). -/
  awaitingKey : Bool
  /-- The model's own: the transactions emitted so far, oldest first (log entry 4). -/
  outputs : List Output
  /-- The model's own: how many random bytes were drawn (log entry 3). -/
  draws : Nat
  /-- The model's own: the events `NextEvent()` hands out first, oldest first; then come free ones (log entry 1). -/
  events : List HostEvent
  /-- The model's own: how many free events were handed out (log entry 1). -/
  freeEvents : Nat
  /-- The model's own: the transactions the host will perform, oldest first; then it calls `update` (log entry 2). -/
  requests : List HostRequest
  /-- The model's own: `update` was called since reset, so `load` is over (log entry 6). -/
  started : Bool
  deriving DecidableEq, Repr

/-- The state after `reset` (10_state.md R21, 70_reset_and_hazards.md R117): memory lists nothing, which is the font and
zeroes. The model's own fields start empty. -/
def State.reset : State where
  v := Vector.replicate 16 0x00#8
  i := 0x0000#16
  pc := Config.loadOffset
  stack := Vector.replicate 16 0x0000#16
  sp := 0
  fb := 0#2048
  dt := 0x00#8
  st := 0x00#8
  key := Vector.replicate 16 false
  runState := .exec
  haltCause := .none
  mem := []
  awaitingKey := false
  outputs := []
  draws := 0
  events := []
  freeEvents := 0
  requests := []
  started := false

end Sys2Proof.Machine
end

