-- ==== Sys2Proof/Machine/Ops.lean ====
section
/-! DEFINITION. The named operations over registers, memory, framebuffer, stack, keys, program counter and outputs, and
raising a fault (00_scope.md R6, 20_memory.md R25 to R36, 60_exceptions.md R101). -/

namespace Sys2Proof.Machine

/-- What a meaning answers. -/
abbrev Result := Host.Outcome State Fault Refusal

/-! ## Registers and program counter -/

/-- Read `V[r]` (10_state.md R8). -/
def State.reg (s : State) (r : Reg) : Byte := s.v.get r

/-- `V[r] <- b` (10_state.md R8). -/
def State.setReg (s : State) (r : Reg) (b : Byte) : State := { s with v := s.v.set r.val b r.isLt }

/-- `I <- w` (10_state.md R10). -/
def State.setI (s : State) (w : Word) : State := { s with i := w }

/-- `pc <- w` (10_state.md R11). -/
def State.setPc (s : State) (w : Word) : State := { s with pc := w }

/-- `pc <- (pc + 2) mod 65536` (30_encoding.md R50). -/
def State.advance (s : State) : State := s.setPc (s.pc + 2#16)

/-- A skip: `pc + 4` when the condition holds, `pc + 2` when not (41_skips.md R59). -/
def State.skipIf (s : State) (taken : Bool) : State :=
  if taken then s.setPc (s.pc + 4#16) else s.advance

/-! ## Timers -/

/-- `dt <- b` (46_timers.md R91). -/
def State.setDt (s : State) (b : Byte) : State := { s with dt := b }

/-- `st <- b` (46_timers.md R92). -/
def State.setSt (s : State) (b : Byte) : State := { s with st := b }

/-! ## The font and memory -/

/-- Glyphs 0 to 7 of the font (20_memory.md R30; glyphs 1 to E from general knowledge, log entry 12). -/
def fontLow : List Byte :=
  [0xF0, 0x90, 0x90, 0x90, 0xF0, 0x20, 0x60, 0x20, 0x20, 0x70,
   0xF0, 0x10, 0xF0, 0x80, 0xF0, 0xF0, 0x10, 0xF0, 0x10, 0xF0,
   0x90, 0x90, 0xF0, 0x10, 0x10, 0xF0, 0x80, 0xF0, 0x10, 0xF0,
   0xF0, 0x80, 0xF0, 0x90, 0xF0, 0xF0, 0x10, 0x20, 0x40, 0x40]

/-- Glyphs 8 to F of the font (20_memory.md R30). -/
def fontHigh : List Byte :=
  [0xF0, 0x90, 0xF0, 0x90, 0xF0, 0xF0, 0x90, 0xF0, 0x10, 0xF0,
   0xF0, 0x90, 0xF0, 0x90, 0x90, 0xE0, 0x90, 0xE0, 0x90, 0xE0,
   0xF0, 0x80, 0x80, 0x80, 0xF0, 0xE0, 0x90, 0x90, 0x90, 0xE0,
   0xF0, 0x80, 0xF0, 0x80, 0xF0, 0xF0, 0x80, 0xF0, 0x80, 0x80]

/-- The 80 bytes reset writes at 0x000 to 0x04F (20_memory.md R30). -/
def fontTable : List Byte := fontLow ++ fontHigh

/-- What an address that memory does not list reads as: its reset content, the font and then zeroes (10_state.md R19). -/
def unlisted (a : Nat) : Byte := if a < Config.fontBytes then fontTable.getD a 0#8 else 0#8

/-- The byte at an address, no range check. -/
def Memory.read : Memory → Nat → Byte
  | [], a => unlisted a
  | (b, v) :: m, a => if b = a then v else Memory.read m a

/-- Set the byte at an address, no range check; an entry equal to its reset content is not listed. -/
def Memory.write : Memory → Nat → Byte → Memory
  | [], a, v => if v = unlisted a then [] else [(a, v)]
  | (b, u) :: m, a, v =>
    if a < b then (if v = unlisted a then (b, u) :: m else (a, v) :: (b, u) :: m)
    else if a = b then (if v = unlisted a then m else (a, v) :: m)
    else (b, u) :: Memory.write m a v

/-- Set consecutive bytes from an address up, in ascending order. -/
def Memory.writeList : Memory → Nat → List Byte → Memory
  | m, _, [] => m
  | m, a, v :: vs => Memory.writeList (Memory.write m a v) (a + 1) vs

/-- The bytes of `n` consecutive addresses, lowest first. -/
def Memory.readList (m : Memory) : Nat → Nat → List Byte
  | _, 0 => []
  | a, n + 1 => Memory.read m a :: Memory.readList m (a + 1) n

/-- Addresses from `lo` up, strictly rising, each entry different from its reset content. -/
def Memory.wfFrom : Nat → Memory → Bool
  | _, [] => true
  | lo, (a, v) :: m => decide (lo ≤ a) && decide (v ≠ unlisted a) && Memory.wfFrom (a + 1) m

/-- The canonical form of memory. -/
def Memory.wf (m : Memory) : Bool := Memory.wfFrom 0 m

/-- Every listed address exists (20_memory.md R24). -/
def Memory.inStore (m : Memory) : Bool := m.all (fun c => decide (c.1 < Config.memSize))

/-- The range check of every access: `n` bytes from `base` up; the fault names the lowest address at or above MEM_SIZE
(20_memory.md R25, R26). Addresses are natural numbers and never wrap. -/
def checkRange (base n : Nat) : Except Fault Unit :=
  if n = 0 ∨ base + n ≤ Config.memSize then .ok () else .error (.memoryOutOfRange (max base Config.memSize))

/-- `MemRead`, `n` bytes, lowest address first (20_memory.md R25). -/
def State.memReadList (s : State) (base n : Nat) : Except Fault (List Byte) :=
  match checkRange base n with
  | .ok _ => .ok (s.mem.readList base n)
  | .error f => .error f

/-- `MemRead(addr, 1)` (20_memory.md R25). -/
def State.memRead (s : State) (addr : Nat) : Except Fault Byte :=
  match checkRange addr 1 with
  | .ok _ => .ok (s.mem.read addr)
  | .error f => .error f

/-- `MemRead(addr, 2)` of the fetch, the lower address in the high half (20_memory.md R25, R27). -/
def State.memReadWord (s : State) (addr : Nat) : Except Fault Word :=
  match checkRange addr 2 with
  | .ok _ => .ok (wordOfBytes (s.mem.read addr) (s.mem.read (addr + 1)))
  | .error f => .error f

/-- Store consecutive bytes, all addresses checked before any is written (20_memory.md R26, 47_index_memory.md R93). -/
def State.memWriteList (s : State) (base : Nat) (bs : List Byte) : Except Fault State :=
  match checkRange base bs.length with
  | .ok _ => .ok { s with mem := s.mem.writeList base bs }
  | .error f => .error f

/-! ## Framebuffer -/

/-- Cell `idx` (20_memory.md R35). -/
def fbGet (fb : Framebuffer) (idx : Nat) : Bool := fb.getLsbD idx

/-- Cell `idx` exclusive-or 1 (44_display.md R82). -/
def fbFlip (fb : Framebuffer) (idx : Nat) : Framebuffer := fb ^^^ BitVec.twoPow 2048 idx

/-- All cells 0 (44_display.md R81). -/
def fbClear : Framebuffer := 0#2048

/-- Replace the framebuffer. -/
def State.setFb (s : State) (fb : Framebuffer) : State := { s with fb := fb }

/-! ## Call stack -/

/-- `Push(w)` (20_memory.md R36). -/
def State.push (s : State) (w : Word) : Except Fault State :=
  if h : s.sp.val < 16 then
    .ok { s with stack := s.stack.set s.sp.val w h, sp := ⟨s.sp.val + 1, by omega⟩ }
  else .error .stackOverflow

/-- `Pop()`: the popped value and the state after (20_memory.md R36). The popped entry keeps its value. -/
def State.pop (s : State) : Except Fault (Word × State) :=
  if h : 0 < s.sp.val then
    .ok (s.stack[s.sp.val - 1]'(by have := s.sp.isLt; omega),
      { s with sp := ⟨s.sp.val - 1, by have := s.sp.isLt; omega⟩ })
  else .error .stackUnderflow

/-! ## Key latch -/

/-- Is key `k` pressed (10_state.md R15). -/
def State.keyDown (s : State) (k : Key) : Bool := s.key.get k

/-- `SetKey(k)`: key `k` pressed and all others cleared (10_state.md R15). -/
def State.pressKey (s : State) (k : Key) : State :=
  { s with key := (Vector.replicate 16 false).set k.val true k.isLt }

/-- `key[k] <- 0` (45_keys.md R85). -/
def State.releaseKey (s : State) (k : Key) : State := { s with key := s.key.set k.val false k.isLt }

/-! ## The key wait -/

/-- The output level `awaiting_key` (60_exceptions.md R113). -/
def State.setAwaiting (s : State) (b : Bool) : State := { s with awaitingKey := b }

/-- `NextEvent()`: the next event of the host, and the state after it: the oldest one listed, else a free value
(60_exceptions.md R114). -/
def State.nextEvent (s : State) : HostEvent × State :=
  match s.events with
  | e :: es => (e, { s with events := es })
  | [] => (Config.hostEvent s.freeEvents, { s with freeEvents := s.freeEvents + 1 })

/-! ## Outputs, halting, raising -/

/-- Emit an output transaction (60_exceptions.md R113). -/
def State.emit (s : State) (o : Output) : State := { s with outputs := s.outputs ++ [o] }

/-- Enter HALT: the cause is recorded and reported once (60_exceptions.md R99, R102). -/
def State.haltWith (s : State) (c : HaltCause) : State :=
  State.emit { s with runState := .halt, haltCause := c } (.report c)

/-- TAKING A RUNTIME FAULT: `raise f` discards every change of the cycle, so it starts from the state the cycle had, sets
HALT and the cause, and reports it (60_exceptions.md R101). There is no handler and no saved state (R102). -/
def State.raise (s : State) (f : Fault) : Result := .next (s.haltWith (.runtime f))

/-- Go on with the state a checked operation gives, or raise its fault from the state `s` the cycle had (R101). -/
def State.orRaise (s : State) : Except Fault State → Result
  | .ok t => .next t
  | .error f => s.raise f

/-- Is the cause one of the runtime faults, codes 3 to 7 (60_exceptions.md R99). -/
def HaltCause.isRuntime : HaltCause → Bool
  | .none => false
  | .decodeFault _ => false
  | .quit => false
  | .runtime _ => true

/-- The numeric code of a cause (60_exceptions.md R99). -/
def HaltCause.code : HaltCause → Nat
  | .none => 0
  | .decodeFault _ => 1
  | .quit => 2
  | .runtime (.memoryOutOfRange _) => 3
  | .runtime .stackOverflow => 4
  | .runtime .stackUnderflow => 5
  | .runtime (.framebufferIndexOutOfRange _) => 6
  | .runtime (.keyIndexOutOfRange _) => 7

/-! ## The random byte -/

/-- `Rand()`: the next draw, a free value, and the state after it (10_state.md R20). -/
def State.draw (s : State) : Byte × State := (Config.randByte s.draws, { s with draws := s.draws + 1 })

/-! ## Placing an instruction where the next step fetches -/

/-- Store the two bytes of a word at `pc` (at LOAD_OFFSET when `pc` cannot be fetched from), and make the next step a cycle:
EXEC, no wait under way, and no host transaction before it. -/
def placeInstruction (s : State) (w : Word) : State :=
  let pc := if s.pc.toNat + 1 < Config.memSize then s.pc else Config.loadOffset
  { s with
    pc := pc
    mem := s.mem.writeList pc.toNat [highByte w, lowByte w]
    runState := .exec
    haltCause := .none
    awaitingKey := false
    requests := [] }

end Sys2Proof.Machine
end

