-- ==== Sys2Proof/Machine/Operands.lean ====
section
/-! DEFINITION. The operand forms: immediates, jump targets, register ranges, key indexes, effective addresses, decimal
digits and sprite pixels (30_encoding.md R40, 44_display.md R80, 45_keys.md R84, 47_index_memory.md R93 to R98). -/

namespace Sys2Proof.Machine

/-- A 12-bit address as a 16-bit value, zero-extended (30_encoding.md R40). -/
def zextAddr (nnn : Addr) : Word := nnn.setWidth 16

/-- A byte as a 16-bit value, zero-extended (30_encoding.md R40). -/
def zextByte (b : Byte) : Word := b.setWidth 16

/-- The target of BNNN: `NNN + V[0]`, at most 0x10FE, not reduced (40_control_flow.md R58). -/
def offsetTarget (s : State) (nnn : Addr) : Word := zextAddr nnn + zextByte (s.reg 0)

/-- The base address of a data access, `I` as a natural number (47_index_memory.md R93). -/
def dataBase (s : State) : Nat := s.i.toNat

/-- The register a shift reads: `V[X]` itself, `Y` being ignored (43_alu.md R77, R79; the spec's decision D11). -/
def shiftOperand (s : State) (x _y : Reg) : Byte := s.reg x

/-- The key `V[X]` names, or the fault for a value above 15 (45_keys.md R84). -/
def keyOperand (s : State) (x : Reg) : Except Fault Key :=
  if h : (s.reg x).toNat < 16 then .ok ⟨(s.reg x).toNat, h⟩
  else .error (.keyIndexOutOfRange (s.reg x).toNat)

/-- The key latch's index as the byte FX0A writes, 0x00 to 0x0F (45_keys.md R88). -/
def keyByte (k : Key) : Byte := BitVec.ofNat 8 k.val

/-- The glyph address of FX29: `V[X] * 5`, 0 to 1275 (47_index_memory.md R95). -/
def glyphAddress (b : Byte) : Word := zextByte b * 5#16

/-- The three decimal digits of a byte, hundreds first (47_index_memory.md R96). -/
def decimalDigits (b : Byte) : List Byte :=
  [BitVec.ofNat 8 (b.toNat / 100), BitVec.ofNat 8 (b.toNat / 10 % 10), BitVec.ofNat 8 (b.toNat % 10)]

/-- `V[0]` to `V[X]`, in that order (47_index_memory.md R97). -/
def regsUpTo (s : State) (x : Reg) : List Byte := s.v.toList.take (x.val + 1)

/-- Load registers from register `r` up with a list of bytes (47_index_memory.md R98). -/
def loadRegs (v : Vector Byte 16) : Nat → List Byte → Vector Byte 16
  | _, [] => v
  | r, b :: bs => loadRegs (v.setIfInBounds r b) (r + 1) bs

/-- The flat framebuffer index of the pixel `col`, `row` of a sprite at `x0`, `y0`: a natural number, nothing reduced
(44_display.md R80). -/
def pixelIndex (x0 y0 row col : Nat) : Nat := x0 + col + (y0 + row) * 64

/-- The flat indexes of the set bits of one sprite row, left to right: bit `7 - col` is column `col` (44_display.md R80). -/
def rowPixels (x0 y0 row : Nat) (b : Byte) : List Nat :=
  ((List.range 8).filter (fun col => b.getLsbD (7 - col))).map (fun col => pixelIndex x0 y0 row col)

/-- The flat indexes of a sprite's set bits in row-major order, the first byte being row `row` (44_display.md R82). -/
def spritePixels (x0 y0 : Nat) : Nat → List Byte → List Nat
  | _, [] => []
  | row, b :: bs => rowPixels x0 y0 row b ++ spritePixels x0 y0 (row + 1) bs

/-- Exclusive-or the pixels into a working copy, in order, noting whether one was already set; the first index of 2048 or
more is the fault (44_display.md R82, 20_memory.md R35). -/
def plotPixels : List Nat → Framebuffer → Bool → Except Fault (Framebuffer × Bool)
  | [], fb, hit => .ok (fb, hit)
  | idx :: rest, fb, hit =>
    if idx < Config.fbSize then plotPixels rest (fbFlip fb idx) (hit || fbGet fb idx)
    else .error (.framebufferIndexOutOfRange idx)

end Sys2Proof.Machine
end

