-- ==== Sys2Proof/Machine/Flags.lean ====
section
/-! DEFINITION. The flag computations (10_state.md R9, 43_alu.md R70) and the order of result and flag (43_alu.md R69). -/

namespace Sys2Proof.Machine

/-- A flag as the byte `V[0xF]` gets: 0x01 or 0x00, the whole byte (10_state.md R9). -/
def flagByte (f : Bool) : Byte := if f then 0x01#8 else 0x00#8

/-- The carry of ADC: the true sum exceeds 8 bits (43_alu.md R75). -/
def carryOut (a b : Byte) : Bool := decide (255 < a.toNat + b.toNat)

/-- The not-borrow of SUB and SUBN: the minuend is STRICTLY greater (43_alu.md R76, R78; 90_conflicts.md C2). -/
def notBorrow (minuend subtrahend : Byte) : Bool := decide (subtrahend.toNat < minuend.toNat)

/-- The bit SRH shifts out (43_alu.md R77). -/
def lowBit (a : Byte) : Bool := a.getLsbD 0

/-- The bit SHL shifts out (43_alu.md R79). -/
def highBit (a : Byte) : Bool := a.getLsbD 7

/-- Write a result to `V[X]` and then the flag to `V[0xF]`, so that the flag wins when `X = 0xF` (43_alu.md R69). -/
def State.setResultFlag (s : State) (x : Reg) (r : Byte) (f : Bool) : State := (s.setReg x r).setReg vf (flagByte f)

end Sys2Proof.Machine
end

