-- ==== Sys2Proof/Machine/Alu.lean ====
section
/-! DEFINITION. The register-register ALU instructions (43_alu.md). Operands are read first, then the result, then the flag,
then `pc` is written (R69). -/

namespace Sys2Proof.Machine

/-- LDX (43_alu.md R71). -/
def execLdx (x y : Reg) (s : State) : Result := .next (s.setReg x (s.reg y)).advance

/-- ORX, no flag (43_alu.md R72). -/
def execOrx (x y : Reg) (s : State) : Result := .next (s.setReg x (s.reg x ||| s.reg y)).advance

/-- ANX, no flag (43_alu.md R73). -/
def execAnx (x y : Reg) (s : State) : Result := .next (s.setReg x (s.reg x &&& s.reg y)).advance

/-- XOR, no flag (43_alu.md R74). -/
def execXor (x y : Reg) (s : State) : Result := .next (s.setReg x (s.reg x ^^^ s.reg y)).advance

/-- ADC: sum modulo 256, carry out, no carry in (43_alu.md R75). -/
def execAdc (x y : Reg) (s : State) : Result :=
  .next (s.setResultFlag x (s.reg x + s.reg y) (carryOut (s.reg x) (s.reg y))).advance

/-- SUB: `V[X] - V[Y]` modulo 256 (43_alu.md R76). -/
def execSub (x y : Reg) (s : State) : Result :=
  .next (s.setResultFlag x (s.reg x - s.reg y) (notBorrow (s.reg x) (s.reg y))).advance

/-- SRH: logical shift right by one (43_alu.md R77). -/
def execSrh (x y : Reg) (s : State) : Result :=
  .next (s.setResultFlag x (shiftOperand s x y >>> 1) (lowBit (shiftOperand s x y))).advance

/-- SUBN: `V[Y] - V[X]` modulo 256 (43_alu.md R78). -/
def execSubn (x y : Reg) (s : State) : Result :=
  .next (s.setResultFlag x (s.reg y - s.reg x) (notBorrow (s.reg y) (s.reg x))).advance

/-- SHL: shift left by one (43_alu.md R79). -/
def execShl (x y : Reg) (s : State) : Result :=
  .next (s.setResultFlag x (shiftOperand s x y <<< 1) (highBit (shiftOperand s x y))).advance

end Sys2Proof.Machine
end

