-- ==== Sys2Proof/Machine/Control.lean ====
section
/-! DEFINITION. The control transfer instructions (40_control_flow.md) and the operation of an unrecognized word
(30_encoding.md R47). -/

namespace Sys2Proof.Machine

/-- RET: pop, and go on after the CALL whose address was pushed (40_control_flow.md R54). -/
def execRet (s : State) : Result :=
  match s.pop with
  | .ok (t, s') => .next (s'.setPc (t + 2#16))
  | .error f => s.raise f

/-- SYS: jump to the byte read at the instruction word's own address, zero-extended (40_control_flow.md R55). -/
def execSys (nnn : Addr) (s : State) : Result :=
  match s.memRead nnn.toNat with
  | .ok b => .next (s.setPc (zextByte b))
  | .error f => s.raise f

/-- JP (40_control_flow.md R56). -/
def execJp (nnn : Addr) (s : State) : Result := .next (s.setPc (zextAddr nnn))

/-- CALL: push the CALL's own address, then jump (40_control_flow.md R57). -/
def execCall (nnn : Addr) (s : State) : Result :=
  match s.push s.pc with
  | .ok s' => .next (s'.setPc (zextAddr nnn))
  | .error f => s.raise f

/-- JPV0 (40_control_flow.md R58). -/
def execJpv0 (nnn : Addr) (s : State) : Result := .next (s.setPc (offsetTarget s nnn))

/-- `opcode_none`: HALT with the offending word, `pc` unchanged (30_encoding.md R47). -/
def execOpcodeNone (w : Word) (s : State) : Result := .next (s.haltWith (.decodeFault w))

end Sys2Proof.Machine
end

