-- ==== Sys2Proof/Machine/Display.lean ====
section
/-! DEFINITION. The display instructions (44_display.md). -/

namespace Sys2Proof.Machine

/-- CLS (44_display.md R81). -/
def execCls (s : State) : Result := .next ((s.setFb fbClear).emit .displayClear).advance

/-- The state after the pixels of a sprite are plotted: the framebuffer, the collision flag, one notification with the new
cells, and `pc` (44_display.md R82). -/
def State.drawn (s : State) (fb : Framebuffer) (hit : Bool) : State :=
  (((s.setFb fb).setReg vf (flagByte hit)).emit (.displayDraw fb)).advance

/-- DRW: all sprite bytes are read before a pixel is touched, then the set bits are plotted in row-major order (44_display.md
R82). -/
def execDrw (x y : Reg) (n : Nibble) (s : State) : Result :=
  match s.memReadList (dataBase s) n.toNat with
  | .error f => s.raise f
  | .ok rows =>
    match plotPixels (spritePixels (s.reg x).toNat (s.reg y).toNat 0 rows) s.fb false with
    | .error f => s.raise f
    | .ok (fb, hit) => .next (s.drawn fb hit)

end Sys2Proof.Machine
end

