-- ==== Sys2Proof/Machine/Immediate.lean ====
section
/-! DEFINITION. The immediate and random instructions (42_immediate.md). -/

namespace Sys2Proof.Machine

/-- LDI (42_immediate.md R65). -/
def execLdi (x : Reg) (nn : Byte) (s : State) : Result := .next (s.setReg x nn).advance

/-- ADDI: modulo 256, no flag (42_immediate.md R66). -/
def execAddi (x : Reg) (nn : Byte) (s : State) : Result := .next (s.setReg x (s.reg x + nn)).advance

/-- LDA (42_immediate.md R67). -/
def execLda (nnn : Addr) (s : State) : Result := .next (s.setI (zextAddr nnn)).advance

/-- RND: a fresh draw under the mask (42_immediate.md R68). -/
def execRnd (x : Reg) (nn : Byte) (s : State) : Result := .next (s.draw.2.setReg x (s.draw.1 &&& nn)).advance

end Sys2Proof.Machine
end

