-- ==== Sys2Proof/Machine/IndexMemory.lean ====
section
/-! DEFINITION. The index-register and memory instructions (47_index_memory.md). `I` is never modified by an access (R93). -/

namespace Sys2Proof.Machine

/-- ADDA: modulo 65536, no flag (47_index_memory.md R94). -/
def execAdda (x : Reg) (s : State) : Result := .next (s.setI (s.i + zextByte (s.reg x))).advance

/-- FONT (47_index_memory.md R95). -/
def execFont (x : Reg) (s : State) : Result := .next (s.setI (glyphAddress (s.reg x))).advance

/-- BCD (47_index_memory.md R96). -/
def execBcd (x : Reg) (s : State) : Result :=
  s.orRaise (s.advance.memWriteList (dataBase s) (decimalDigits (s.reg x)))

/-- STM (47_index_memory.md R97). -/
def execStm (x : Reg) (s : State) : Result :=
  s.orRaise (s.advance.memWriteList (dataBase s) (regsUpTo s x))

/-- LDM (47_index_memory.md R98). -/
def execLdm (x : Reg) (s : State) : Result :=
  match s.memReadList (dataBase s) (x.val + 1) with
  | .error f => s.raise f
  | .ok bs => .next (State.advance { s with v := loadRegs s.v 0 bs })

end Sys2Proof.Machine
end

