-- ==== Sys2Proof/Machine/Keys.lean ====
section
/-! DEFINITION. The key instructions (45_keys.md). -/

namespace Sys2Proof.Machine

/-- SKP: skip if the key is pressed, and then consume it (45_keys.md R84, R85). -/
def execSkp (x : Reg) (s : State) : Result :=
  match keyOperand s x with
  | .error f => s.raise f
  | .ok k => .next (if s.keyDown k then (s.releaseKey k).skipIf true else s.skipIf false)

/-- SKNP: skip if the key is not pressed; the latch is unchanged (45_keys.md R84, R86). -/
def execSknp (x : Reg) (s : State) : Result :=
  match keyOperand s x with
  | .error f => s.raise f
  | .ok k => .next (s.skipIf (!(s.keyDown k)))

/-- One turn of WKEY's loop, on the event the host supplied (45_keys.md R88): a key-down is received and latched and ends the
wait, a quit halts with `pc` unchanged and ends it, any other event changes nothing and the wait goes on. -/
def receiveEvent (x : Reg) (s : State) : HostEvent → State
  | .keyDown k => (((s.setAwaiting false).setReg x (keyByte k)).pressKey k).advance
  | .quit => (s.setAwaiting false).haltWith .quit
  | .other => s

/-- WKEY (45_keys.md R87, R88): it raises `awaiting_key`; while that is 1 it takes one event each time it runs (log entry 5). -/
def execWkey (x : Reg) (s : State) : Result :=
  if s.awaitingKey then .next (receiveEvent x s.nextEvent.2 s.nextEvent.1) else .next (s.setAwaiting true)

end Sys2Proof.Machine
end

