-- ==== Sys2Proof/Machine/Timers.lean ====
section
/-! DEFINITION. The timer instructions (46_timers.md). -/

namespace Sys2Proof.Machine

/-- LDDT: the value before this cycle's decrement (46_timers.md R90). -/
def execLddt (x : Reg) (s : State) : Result := .next (s.setReg x s.dt).advance

/-- STDT (46_timers.md R91). -/
def execStdt (x : Reg) (s : State) : Result := .next (s.setDt (s.reg x)).advance

/-- STST (46_timers.md R92). -/
def execStst (x : Reg) (s : State) : Result := .next (s.setSt (s.reg x)).advance

end Sys2Proof.Machine
end

