-- ==== Sys2Proof/Machine/Cycle.lean ====
section
/-! DEFINITION. The cycle `update` performs (30_encoding.md R38), the host's transactions (60_exceptions.md R113) and whose
turn it is (00_scope.md R7). -/

namespace Sys2Proof.Machine

/-- Step 1, fetch: two bytes at `pc`, big-endian; `pc` is not changed (30_encoding.md R38). -/
def fetch (s : State) : Except Fault Word := s.memReadWord s.pc.toNat

/-- `update` was called, so `load` is over (60_exceptions.md R113; log entry 6). -/
def noteUpdate (s : State) : State := { s with started := true }

/-- Step 4, timers: both down by one modulo 256 (30_encoding.md R38). -/
def tickTimers (s : State) : State := { s with dt := s.dt - 1#8, st := s.st - 1#8 }

/-- Does step 4 follow: not while WKEY waits, and not after a runtime fault (30_encoding.md R38, 60_exceptions.md R108). -/
def reachesTimers (s : State) : Bool :=
  !s.awaitingKey && !(s.runState == .halt && s.haltCause.isRuntime)

/-- The state step 4 leaves (30_encoding.md R38). -/
def endCycle (s : State) : State := if reachesTimers s then tickTimers s else s

/-- Step 4 after whatever execute answered. -/
def afterExecute : Result → Result
  | .next t => .next (endCycle t)
  | .fault f => .fault f
  | .refused r => .refused r

/-- One cycle: fetch, decode, execute, timers (30_encoding.md R38). -/
def cycle (s : State) : Result :=
  match fetch (noteUpdate s) with
  | .error f => (noteUpdate s).raise f
  | .ok w => afterExecute (exec (decode w) (noteUpdate s))

/-- `update()`: a cycle in EXEC, nothing in PAUSE or HALT (30_encoding.md R38); in PAUSE too it ends the time for `load`
(60_exceptions.md R113). -/
def update (s : State) : Result :=
  match s.runState with
  | .exec => cycle s
  | .pause => .next (noteUpdate s)
  | .halt => .next s

/-- `reset`: every piece of the core's state at its reset value; the model's own inputs and observations go on
(70_reset_and_hazards.md R117). -/
def hostReset (s : State) : Result :=
  .next { State.reset with
    outputs := s.outputs, draws := s.draws, events := s.events, freeEvents := s.freeEvents, requests := s.requests }

/-- `load(bytes, offset)`: allowed before the first `update` and if it fits, else refused; nothing in HALT (20_memory.md R31,
60_exceptions.md R113). -/
def hostLoad (bytes : List Byte) (offset : Nat) (s : State) : Result :=
  if s.runState = .halt then .next s
  else if s.started then .refused .loadAfterStart
  else if offset + bytes.length ≤ Config.memSize then .next { s with mem := s.mem.writeList offset bytes }
  else .refused .loadDoesNotFit

/-- `set_key(n)`: refused above 15; nothing in HALT (10_state.md R15, 60_exceptions.md R113). -/
def hostSetKey (n : Nat) (s : State) : Result :=
  if s.runState = .halt then .next s
  else if h : n < 16 then .next (s.pressKey ⟨n, h⟩)
  else .refused (.noSuchKey n)

/-- `quit()` between cycles: HALT with cause Quit, nothing else; in HALT nothing (60_exceptions.md R115). -/
def hostQuit (s : State) : Result := if s.runState = .halt then .next s else .next (s.haltWith .quit)

/-- `pause()`: EXEC to PAUSE (60_exceptions.md R112). -/
def hostPause (s : State) : Result := if s.runState = .exec then .next { s with runState := .pause } else .next s

/-- `resume()`: PAUSE to EXEC (60_exceptions.md R112). -/
def hostResume (s : State) : Result := if s.runState = .pause then .next { s with runState := .exec } else .next s

/-- Perform one transaction of the host (60_exceptions.md R113). -/
def perform (r : HostRequest) (s : State) : Result :=
  match r with
  | .update => update s
  | .reset => hostReset s
  | .load bytes offset => hostLoad bytes offset s
  | .setKey n => hostSetKey n s
  | .quit => hostQuit s
  | .pause => hostPause s
  | .resume => hostResume s

/-- A cycle is under way: WKEY waits (45_keys.md R87). The host cannot act then, only supply events (00_scope.md R7). -/
def midWait (s : State) : Bool := (s.runState == .exec) && s.awaitingKey

/-- One step of core and host together: a cycle under way goes on; else the host's oldest transaction is performed; else the
host calls `update` (00_scope.md R7; log entry 2). -/
def turn (s : State) : Result :=
  if midWait s then cycle s
  else match s.requests with
    | [] => update s
    | r :: rest => perform r { s with requests := rest }

end Sys2Proof.Machine
end

