-- ==== Sys2Proof/Machine/Step.lean ====
section
/-! DEFINITION. The step of the whole machine, and where its next instruction is placed. -/

namespace Sys2Proof.Machine

/-- One step (00_scope.md R7, 30_encoding.md R38). -/
def step (s : State) : Host.Outcome State Fault Refusal := turn s

/-- `s` with the instruction word of table number `w` (`nbits` bits) stored where the next step fetches. It stands for the
host's `load` (log entry 31). -/
def State.withFetchWord (s : State) (nbits w : Nat) : State := placeInstruction s (tableWord nbits w)

end Sys2Proof.Machine
end

