-- ==== Sys2Proof/Safety.lean ====
section
/-! DEFINITION. The terms claims are stated in: the parts of the state and which of them two states agree on, what each
instruction may write (10_state.md R22), faulted states, and the invariant of the machine. -/

namespace Sys2Proof.Safety

open Sys2Proof.Machine

/-- A part of the state that an instruction may leave unchanged: a single register, stack entry, framebuffer cell, key or
memory byte, or a whole field. -/
inductive Part where
  | reg (r : Reg)
  | index
  | pc
  | stackEntry (k : Fin 16)
  | sp
  | cell (idx : Nat)
  | delay
  | sound
  | key (k : Key)
  | runState
  | haltCause
  | byte (a : Nat)
  | awaitingKey
  | outputs
  | draws
  | events
  | freeEvents
  | requests
  | started
  deriving DecidableEq, Repr

/-- The two states agree on a part. -/
def Part.same (s t : State) : Part → Prop
  | .reg r => t.reg r = s.reg r
  | .index => t.i = s.i
  | .pc => t.pc = s.pc
  | .stackEntry k => t.stack.get k = s.stack.get k
  | .sp => t.sp = s.sp
  | .cell idx => fbGet t.fb idx = fbGet s.fb idx
  | .delay => t.dt = s.dt
  | .sound => t.st = s.st
  | .key k => t.keyDown k = s.keyDown k
  | .runState => t.runState = s.runState
  | .haltCause => t.haltCause = s.haltCause
  | .byte a => t.mem.read a = s.mem.read a
  | .awaitingKey => t.awaitingKey = s.awaitingKey
  | .outputs => t.outputs = s.outputs
  | .draws => t.draws = s.draws
  | .events => t.events = s.events
  | .freeEvents => t.freeEvents = s.freeEvents
  | .requests => t.requests = s.requests
  | .started => t.started = s.started

/-- FRAME: every part outside `W` is in `t` what it was in `s`; all registers, all memory bytes, all cells included. -/
def SameExcept (W : Part → Prop) (s t : State) : Prop := ∀ p, ¬ W p → p.same s t

/-- The parts that entering HALT writes (60_exceptions.md R101): run_state, halt_cause, and the report. -/
def haltPart (p : Part) : Prop := p = .runState ∨ p = .haltCause ∨ p = .outputs

/-- The machine took the runtime fault `f` from `s`: HALT with the cause recorded and reported, and nothing else changed
(60_exceptions.md R101). -/
def TakesFault (f : Fault) (s t : State) : Prop :=
  t.runState = .halt ∧ t.haltCause = .runtime f ∧ t.outputs = s.outputs ++ [.report (.runtime f)] ∧
    SameExcept haltPart s t

/-- What an instruction may write when it does not fault: the "w" entries of 10_state.md R22 with `pc`, and the outputs and
inputs the model holds. -/
def mayWrite (i : Instr) (s : State) (p : Part) : Prop :=
  match i with
  | .cls => p = .pc ∨ p = .outputs ∨ ∃ idx, p = .cell idx
  | .ret => p = .pc ∨ p = .sp
  | .sys _ => p = .pc
  | .jp _ => p = .pc
  | .call _ => p = .pc ∨ p = .sp ∨ ∃ k : Fin 16, k.val = s.sp.val ∧ p = .stackEntry k
  | .sei _ _ => p = .pc
  | .snei _ _ => p = .pc
  | .ser _ _ => p = .pc
  | .ldi x _ => p = .pc ∨ p = .reg x
  | .addi x _ => p = .pc ∨ p = .reg x
  | .ldx x _ => p = .pc ∨ p = .reg x
  | .orx x _ => p = .pc ∨ p = .reg x
  | .anx x _ => p = .pc ∨ p = .reg x
  | .xor x _ => p = .pc ∨ p = .reg x
  | .adc x _ => p = .pc ∨ p = .reg x ∨ p = .reg vf
  | .sub x _ => p = .pc ∨ p = .reg x ∨ p = .reg vf
  | .srh x _ => p = .pc ∨ p = .reg x ∨ p = .reg vf
  | .subn x _ => p = .pc ∨ p = .reg x ∨ p = .reg vf
  | .shl x _ => p = .pc ∨ p = .reg x ∨ p = .reg vf
  | .sner _ _ => p = .pc
  | .lda _ => p = .pc ∨ p = .index
  | .jpv0 _ => p = .pc
  | .rnd x _ => p = .pc ∨ p = .reg x ∨ p = .draws
  | .drw _ _ _ => p = .pc ∨ p = .reg vf ∨ p = .outputs ∨ ∃ idx, p = .cell idx
  | .skp x => p = .pc ∨ ∃ k : Key, k.val = (s.reg x).toNat ∧ p = .key k
  | .sknp _ => p = .pc
  | .lddt x => p = .pc ∨ p = .reg x
  | .wkey x => p = .pc ∨ p = .reg x ∨ p = .awaitingKey ∨ p = .events ∨ p = .freeEvents ∨ ∃ k, p = .key k
  | .stdt _ => p = .pc ∨ p = .delay
  | .stst _ => p = .pc ∨ p = .sound
  | .adda _ => p = .pc ∨ p = .index
  | .font _ => p = .pc ∨ p = .index
  | .bcd _ => p = .pc ∨ ∃ k, k < 3 ∧ p = .byte (s.i.toNat + k)
  | .stm x => p = .pc ∨ ∃ k, k ≤ x.val ∧ p = .byte (s.i.toNat + k)
  | .ldm x => p = .pc ∨ ∃ r : Reg, r ≤ x ∧ p = .reg r
  | .opcodeNone _ => False

/-- The operations that can enter HALT in their execute step: the ten instructions 60_exceptions.md R99 names and
`opcode_none`. -/
def mayHalt : Instr → Bool
  | .sys _ => true
  | .ret => true
  | .call _ => true
  | .drw _ _ _ => true
  | .skp _ => true
  | .sknp _ => true
  | .wkey _ => true
  | .bcd _ => true
  | .stm _ => true
  | .ldm _ => true
  | .opcodeNone _ => true
  | .cls => false
  | .jp _ => false
  | .sei _ _ => false
  | .snei _ _ => false
  | .ser _ _ => false
  | .ldi _ _ => false
  | .addi _ _ => false
  | .ldx _ _ => false
  | .orx _ _ => false
  | .anx _ _ => false
  | .xor _ _ => false
  | .adc _ _ => false
  | .sub _ _ => false
  | .srh _ _ => false
  | .subn _ _ => false
  | .shl _ _ => false
  | .sner _ _ => false
  | .lda _ => false
  | .jpv0 _ => false
  | .rnd _ _ => false
  | .lddt _ => false
  | .stdt _ => false
  | .stst _ => false
  | .adda _ => false
  | .font _ => false

/-- The six instructions that write the flag register as a side effect (10_state.md R9). -/
def writesFlag : Instr → Bool
  | .adc _ _ => true
  | .sub _ _ => true
  | .srh _ _ => true
  | .subn _ _ => true
  | .shl _ _ => true
  | .drw _ _ _ => true
  | .cls => false
  | .ret => false
  | .sys _ => false
  | .jp _ => false
  | .call _ => false
  | .sei _ _ => false
  | .snei _ _ => false
  | .ser _ _ => false
  | .ldi _ _ => false
  | .addi _ _ => false
  | .ldx _ _ => false
  | .orx _ _ => false
  | .anx _ _ => false
  | .xor _ _ => false
  | .sner _ _ => false
  | .lda _ => false
  | .jpv0 _ => false
  | .rnd _ _ => false
  | .skp _ => false
  | .sknp _ => false
  | .lddt _ => false
  | .wkey _ => false
  | .stdt _ => false
  | .stst _ => false
  | .adda _ => false
  | .font _ => false
  | .bcd _ => false
  | .stm _ => false
  | .ldm _ => false
  | .opcodeNone _ => false

/-- The ways an operation sets `pc` (30_encoding.md R50): plus 2; plus 4 if a condition holds and else plus 2; an absolute
value; or not at all, which only the halting `opcode_none` does. -/
inductive PcWay where
  | plusTwo
  | skipWhen (condition : Bool)
  | absolute (target : Nat)
  | stays
  deriving DecidableEq, Repr

/-- The value of `pc` a way gives, from the old one (30_encoding.md R50). -/
def PcWay.apply (pc : Nat) : PcWay → Nat
  | .plusTwo => (pc + 2) % 65536
  | .skipWhen c => if c then (pc + 4) % 65536 else (pc + 2) % 65536
  | .absolute target => target
  | .stays => pc

/-- The way of each operation (30_encoding.md R50, with the conditions and targets of 40_control_flow.md R54 to R58,
41_skips.md R60 to R63 and 45_keys.md R85, R86). -/
def pcWay (i : Instr) (s : State) : PcWay :=
  match i with
  | .cls => .plusTwo
  | .ret => .absolute (((s.stack.toList.getD (s.sp.val - 1) 0#16).toNat + 2) % 65536)
  | .sys nnn => .absolute (s.mem.read nnn.toNat).toNat
  | .jp nnn => .absolute nnn.toNat
  | .call nnn => .absolute nnn.toNat
  | .sei x nn => .skipWhen (decide ((s.reg x).toNat = nn.toNat))
  | .snei x nn => .skipWhen (decide ((s.reg x).toNat ≠ nn.toNat))
  | .ser x y => .skipWhen (decide ((s.reg x).toNat = (s.reg y).toNat))
  | .ldi _ _ => .plusTwo
  | .addi _ _ => .plusTwo
  | .ldx _ _ => .plusTwo
  | .orx _ _ => .plusTwo
  | .anx _ _ => .plusTwo
  | .xor _ _ => .plusTwo
  | .adc _ _ => .plusTwo
  | .sub _ _ => .plusTwo
  | .srh _ _ => .plusTwo
  | .subn _ _ => .plusTwo
  | .shl _ _ => .plusTwo
  | .sner x y => .skipWhen (decide ((s.reg x).toNat ≠ (s.reg y).toNat))
  | .lda _ => .plusTwo
  | .jpv0 nnn => .absolute (nnn.toNat + (s.reg 0).toNat)
  | .rnd _ _ => .plusTwo
  | .drw _ _ _ => .plusTwo
  | .skp x => .skipWhen (s.key.toList.getD (s.reg x).toNat false)
  | .sknp x => .skipWhen (!(s.key.toList.getD (s.reg x).toNat false))
  | .lddt _ => .plusTwo
  | .wkey _ => .plusTwo
  | .stdt _ => .plusTwo
  | .stst _ => .plusTwo
  | .adda _ => .plusTwo
  | .font _ => .plusTwo
  | .bcd _ => .plusTwo
  | .stm _ => .plusTwo
  | .ldm _ => .plusTwo
  | .opcodeNone _ => .stays

/-- A fault state: HALT with a cause from 3 to 7, never the end of a good run (60_exceptions.md R100). -/
abbrev Faulted (s : State) : Prop := s.runState = .halt ∧ s.haltCause.isRuntime = true

/-- Both bytes of the word at `a` exist (20_memory.md R25). -/
abbrev Fetchable (a : Nat) : Prop := a + 1 < Config.memSize

/-- The instruction the two bytes at `pc` decode to (30_encoding.md R38). -/
def instrAt (s : State) : Instr := decode (wordOfBytes (s.mem.read s.pc.toNat) (s.mem.read (s.pc.toNat + 1)))

/-- A WKEY is the instruction at `pc`, the only one that waits (45_keys.md R87). -/
abbrev AtWkey (s : State) : Prop := s.runState = .exec ∧ Fetchable s.pc.toNat ∧ ∃ x, instrAt s = .wkey x

/-- `n` steps of the machine, up to the first fault or refusal. -/
def stepN : Nat → State → Result
  | 0, s => .next s
  | n + 1, s =>
    match step s with
    | .next t => stepN n t
    | .fault f => .fault f
    | .refused r => .refused r

/-- The next step of `s` is a cycle, run on `u`: a wait goes on, or no transaction is pending and the host calls `update`, or
`update` is the oldest pending transaction, which is taken from the list (00_scope.md R7, log entry 2). -/
def CycleFrom (s u : State) : Prop :=
  s.runState = .exec ∧
    ((s.awaitingKey = true ∧ u = s) ∨ (s.awaitingKey = false ∧ s.requests = [] ∧ u = s) ∨
      (s.awaitingKey = false ∧ ∃ rest, s.requests = .update :: rest ∧ u = { s with requests := rest }))

/-- The host's next event is `e`, and after it `es` are listed and `n` free ones were handed out: the oldest listed event, else
a free one (60_exceptions.md R114, log entry 1). -/
def Supplies (s : State) (e : HostEvent) (es : List HostEvent) (n : Nat) : Prop :=
  (s.events = e :: es ∧ n = s.freeEvents) ∨
    (s.events = [] ∧ Config.hostEvent s.freeEvents = e ∧ es = [] ∧ n = s.freeEvents + 1)

/-- THE INVARIANT: memory is in canonical form and lists only addresses that exist (20_memory.md R23); at most one key is
pressed (10_state.md R15); `halt_cause` is None exactly outside HALT (60_exceptions.md R99); a wait is under way only in EXEC
and at a WKEY (45_keys.md R87); every live stack entry is an address an instruction was fetched from (40_control_flow.md R54). -/
def Inv (s : State) : Prop :=
  s.mem.wf = true ∧ s.mem.inStore = true ∧
  (∀ j k : Key, s.keyDown j = true → s.keyDown k = true → j = k) ∧
  (s.haltCause = .none ↔ s.runState ≠ .halt) ∧
  (s.awaitingKey = true → AtWkey s) ∧
  (∀ k : Fin 16, k.val < s.sp.val → Fetchable (s.stack.get k).toNat)

/-- `pc` went up by `n`, modulo 65536 (30_encoding.md R50). -/
def PcPlus (n : Nat) (s t : State) : Prop := t.pc.toNat = (s.pc.toNat + n) % 65536

/-- The word of `i` has the match value under the mask, and it reads back as `i` (30_encoding.md R41). -/
def HasEncoding (i : Instr) (value mask : Word) : Prop := encode i &&& mask = value ∧ decode (encode i) = i

/-- The sprite at `I`, placed by `V[X]` and `V[Y]`, has a set bit in row `row`, column `col`, bit 7 being column 0
(44_display.md R80). -/
def SpriteBit (s : State) (n : Nibble) (row col : Nat) : Prop :=
  row < n.toNat ∧ col < 8 ∧ (s.mem.read (s.i.toNat + row)).getLsbD (7 - col) = true

/-- The flat index of the sprite's pixel `row`, `col`: a natural number, nothing reduced (44_display.md R80). -/
def spriteIndex (s : State) (x y : Reg) (row col : Nat) : Nat :=
  (s.reg x).toNat + col + ((s.reg y).toNat + row) * 64

/-- A set bit of the sprite lands on cell `c` (44_display.md R82). -/
def Covers (s : State) (x y : Reg) (n : Nibble) (c : Nat) : Prop :=
  ∃ row col, SpriteBit s n row col ∧ c = spriteIndex s x y row col

/-- DRW meets no fault: its `N` bytes exist and every set bit lands on a cell (44_display.md R82). -/
def Drawable (s : State) (x y : Reg) (n : Nibble) : Prop :=
  (n.toNat = 0 ∨ s.i.toNat + n.toNat ≤ Config.memSize) ∧ ∀ c, Covers s x y n c → c < Config.fbSize

end Sys2Proof.Safety
end

