-- ==== Sys2Proof/Certificates/Slice0/Obligations.lean ====
section
/-! DEFINITION. The statements for the provers, from the spec's numbered rules. "t" is the state after, "s" the state before.
A frame is written with `SameExcept`: every register, stack entry, cell, key, memory byte and field outside the named parts
is unchanged. -/

open Sys2Proof Sys2Proof.Machine Sys2Proof.Safety

/-! ## Encoding -/

/-- Words of 95_test_vectors.md Part 2 (E1 to E22) and of the examples of 42_immediate.md (0x6005) and S4 (0x8564) read as the
instructions the spec gives. That 0x01E0 and 0x0FEE are SYS is the spec's decision D9, the class 8 nibbles of 0x8AB7, 0x8AB8,
0x8ABE and 0x8564 its decision D10 from general knowledge G1 (log entry 16). -/
def Obligations.SampleWordsDecodeAsListed : Prop :=
  decode 0x00E0 = .cls ∧ decode 0x00EE = .ret ∧ decode 0x0000 = .sys 0x000 ∧ decode 0x01E0 = .sys 0x1E0 ∧
  decode 0x0FEE = .sys 0xFEE ∧ decode 0x5120 = .ser 1 2 ∧ decode 0x5001 = .opcodeNone 0x5001 ∧
  decode 0x912F = .opcodeNone 0x912F ∧ decode 0x8AB7 = .subn 0xA 0xB ∧ decode 0x8AB8 = .opcodeNone 0x8AB8 ∧
  decode 0x8ABE = .shl 0xA 0xB ∧ decode 0xE19E = .skp 1 ∧ decode 0xE1A1 = .sknp 1 ∧
  decode 0xE19F = .opcodeNone 0xE19F ∧ decode 0xF30A = .wkey 3 ∧ decode 0xF375 = .opcodeNone 0xF375 ∧
  decode 0xD00F = .drw 0 0 15 ∧ decode 0xBFFF = .jpv0 0xFFF ∧ decode 0x8564 = .adc 5 6 ∧ decode 0x6005 = .ldi 0 0x05

/-- Decoding the word of a well-formed instruction gives it back, for every instruction and every operand value (30_encoding.md
R39, R41; its class 8 nibbles and class 0 words are the spec's decisions D10, D9). -/
def Obligations.DecodeOfEncodeIsTheInstruction : Prop :=
  ∀ i : Instr, i.wellFormed = true → decode (encode i) = i

/-- Every word has one reading: decoding gives a well-formed instruction whose word it is (30_encoding.md R41, total). -/
def Obligations.EncodeOfDecodeIsTheWord : Prop :=
  ∀ w : Word, (decode w).wellFormed = true ∧ encode (decode w) = w

/-- The nibble dispatch and the match and mask table agree on every word (30_encoding.md R41). -/
def Obligations.DecodeAgreesWithMatchMaskTable : Prop :=
  ∀ w : Word, decode w = tableDecode w

/-- No word is covered by two rows, class 0's exceptions taken into account (30_encoding.md section 3). -/
def Obligations.OpcodeRowsAreDisjoint : Prop :=
  ∀ (w : Word) (r q : OpcodeRow), r ∈ opcodeRows → q ∈ opcodeRows → r.covers w = true → q.covers w = true → r = q

/-- The unrecognized words are exactly the ones 30_encoding.md section 4 lists (the class 8 part is the spec's decision D10,
the class 0 part D9), and `opcode_none` always carries the decoded word. -/
def Obligations.UnrecognizedWordsAreTheListedOnes : Prop :=
  ∀ w : Word,
    ((∃ u, decode w = .opcodeNone u) ↔
      (((classOf w).toNat = 5 ∨ (classOf w).toNat = 9) ∧ (nOf w).toNat ≠ 0) ∨
      ((classOf w).toNat = 8 ∧ ((8 ≤ (nOf w).toNat ∧ (nOf w).toNat ≤ 13) ∨ (nOf w).toNat = 15)) ∨
      ((classOf w).toNat = 14 ∧ (nnOf w).toNat ∉ [0x9E, 0xA1]) ∨
      ((classOf w).toNat = 15 ∧
        (nnOf w).toNat ∉ [0x07, 0x0A, 0x15, 0x18, 0x1E, 0x29, 0x33, 0x55, 0x65])) ∧
    ∀ u, decode w = .opcodeNone u → u = w

/-! ## The step -/

/-- A STEP RUNS THE DECODED INSTRUCTION: when the step is a cycle (a wait goes on, or the host calls `update`, pending or of
itself), it decodes the two bytes at `pc`, executes, and then decrements the timers unless WKEY waits or a runtime fault was
taken (30_encoding.md section 1). That a runtime fault skips the timers is the spec's decision D3 (log entry 13), that
opcode_none and a quit inside WKEY do not is D6 (log entry 14); awaitingKey and started are the model's (log entries 5, 6). -/
def Obligations.StepRunsTheDecodedInstruction : Prop :=
  ∀ (s u : State) (i : Instr), CycleFrom s u → Fetchable s.pc.toNat →
    decodeBytes [s.mem.read s.pc.toNat, s.mem.read (s.pc.toNat + 1)] = .ok (i, []) →
    step s = match exec i { u with started := true } with
      | .next t => .next (if t.awaitingKey = true ∨ Faulted t then t else { t with dt := t.dt - 1, st := t.st - 1 })
      | .fault f => .fault f
      | .refused r => .refused r

/-- A fetch outside memory is the fault MemoryOutOfRange of `pc`, else of `pc + 1`, and only the halt happens (30_encoding.md
section 1 and 60_exceptions.md section 3; precision is the spec's decision D3, log entry 13; halt_cause D20, log entry 25; the
fault at the fetch and not at the jump D26, log entry 28; started is the model's, log entry 6). -/
def Obligations.FetchOutsideMemoryFaults : Prop :=
  ∀ s u : State, CycleFrom s u → ¬ Fetchable s.pc.toNat →
    ∃ t, step s = .next t ∧
      TakesFault (.memoryOutOfRange (if s.pc.toNat < Config.memSize then s.pc.toNat + 1 else s.pc.toNat))
        { u with started := true } t

/-- HALT is left by no step but the host's reset: any other pending transaction, and the next `update`, changes nothing, and
the first cause stays; reset reinitialises everything (60_exceptions.md section 4; the values are the spec's decision D4; the
outputs, draws, events and requests are the model's own and go on, log entries 1 to 4). -/
def Obligations.HaltIsLeftOnlyByReset : Prop :=
  ∀ s : State, s.runState = .halt →
    (s.requests = [] → step s = .next s) ∧
    (∀ r rest, s.requests = r :: rest → r ≠ .reset → step s = .next { s with requests := rest }) ∧
    (∀ rest, s.requests = .reset :: rest → ∃ t, step s = .next t ∧ t.runState = .exec ∧ t.haltCause = .none ∧
      t.requests = rest ∧
      SameExcept (fun p => p = .outputs ∨ p = .draws ∨ p = .events ∨ p = .freeEvents ∨ p = .requests) State.reset t)

/-- `update`, `pause`, `resume` and `quit` between cycles. In PAUSE `update`, pending or called of itself, changes nothing but
the model's note that the time for `load` is over. `pause` goes from EXEC to PAUSE and in PAUSE does nothing, `resume` goes from
PAUSE to EXEC and in EXEC does nothing; `quit` ends the run with cause Quit from either and changes nothing else, the timers
included. Each takes itself from the pending transactions and leaves the others (60_exceptions.md sections 8 and 9; the spec's
decisions D5, D21, D30; log entries 2, 6, 30). -/
def Obligations.PauseResumeAndQuitOfTheHost : Prop :=
  ∀ (s : State) (rest : List HostRequest), midWait s = false →
    (s.runState = .pause → s.requests = [] → step s = .next { s with started := true }) ∧
    (s.runState = .pause → s.requests = .update :: rest →
      step s = .next { s with requests := rest, started := true }) ∧
    (s.runState = .exec → s.requests = .pause :: rest →
      step s = .next { s with requests := rest, runState := .pause }) ∧
    (s.runState = .pause → s.requests = .pause :: rest → step s = .next { s with requests := rest }) ∧
    (s.runState = .pause → s.requests = .resume :: rest →
      step s = .next { s with requests := rest, runState := .exec }) ∧
    (s.runState = .exec → s.requests = .resume :: rest → step s = .next { s with requests := rest }) ∧
    (s.runState ≠ .halt → s.requests = .quit :: rest →
      step s = .next { s with requests := rest, runState := .halt, haltCause := .quit,
                              outputs := s.outputs ++ [.report .quit] })

/-- The host's `set_key(n)`: key `n` pressed and every other one cleared, nothing else; above 15 it is refused (10_state.md
section 8, 60_exceptions.md section 9; the refusal is the spec's decision D21). -/
def Obligations.SetKeyLatchesExactlyOneKey : Prop :=
  ∀ (s : State) (n : Nat) (rest : List HostRequest), midWait s = false → s.runState ≠ .halt →
    s.requests = .setKey n :: rest →
    (∀ h : n < 16, ∃ t, step s = .next t ∧ (∀ j : Key, t.keyDown j = true ↔ j = ⟨n, h⟩) ∧ t.requests = rest ∧
      SameExcept (fun p => p = .requests ∨ ∃ j, p = .key j) s t) ∧
    (15 < n → step s = .refused (.noSuchKey n))

/-- The host's `load` copies its bytes and nothing else; one that does not fit or comes after the first `update` is refused
(20_memory.md section 8; the refusals are the spec's decision D21, the field `started` the model's, log entry 6). -/
def Obligations.LoadCopiesTheImage : Prop :=
  ∀ (s : State) (bytes : List Byte) (offset : Nat) (rest : List HostRequest),
    midWait s = false → s.runState ≠ .halt → s.mem.wf = true → s.requests = .load bytes offset :: rest →
    (s.started = false → offset + bytes.length ≤ Config.memSize → ∃ t, step s = .next t ∧
      (∀ (k : Nat) (h : k < bytes.length), t.mem.read (offset + k) = bytes[k]) ∧ t.requests = rest ∧
      SameExcept (fun p => p = .requests ∨ ∃ k, k < bytes.length ∧ p = .byte (offset + k)) s t) ∧
    (s.started = false → Config.memSize < offset + bytes.length → step s = .refused .loadDoesNotFit) ∧
    (s.started = true → step s = .refused .loadAfterStart)

/-- The host's `reset`, in any run state between cycles, gives every piece of the core's state its reset value
(70_reset_and_hazards.md section 1; the values are the spec's decision D4; the outputs, draws, events and requests are the
model's own and go on, log entries 1 to 4). -/
def Obligations.HostResetRestoresEverything : Prop :=
  ∀ (s : State) (rest : List HostRequest), midWait s = false → s.requests = .reset :: rest →
    ∃ t, step s = .next t ∧
      SameExcept (fun p => p = .outputs ∨ p = .draws ∨ p = .events ∨ p = .freeEvents ∨ p = .requests) State.reset t ∧
      t.outputs = s.outputs ∧ t.draws = s.draws ∧ t.events = s.events ∧ t.freeEvents = s.freeEvents ∧
      t.requests = rest

/-! ## Reset -/

/-- The reset values (10_state.md section 13; where its table says decision, D2, D4 and D20, log entries 10, 11, 25). That no
wait is under way and no `update` has been called are the model's choice (log entries 5, 6). -/
def Obligations.ResetValuesOfTheRegisters : Prop :=
  (∀ r : Reg, State.reset.reg r = 0) ∧ State.reset.i = 0 ∧ State.reset.pc = 0x200 ∧ State.reset.sp = 0 ∧
  (∀ k : Fin 16, State.reset.stack.get k = 0) ∧ (∀ c, fbGet State.reset.fb c = false) ∧
  State.reset.dt = 0 ∧ State.reset.st = 0 ∧ (∀ k : Key, State.reset.keyDown k = false) ∧
  State.reset.runState = .exec ∧ State.reset.haltCause = .none ∧ State.reset.awaitingKey = false ∧
  State.reset.started = false

/-- Memory after reset: the 80 font bytes written out from 20_memory.md section 7, zero from 0x50 on. Glyphs 0 and F are the
source's; glyphs 1 to E are from general knowledge (G2, log entry 12). -/
def Obligations.ResetMemoryIsFontThenZero : Prop :=
  State.reset.mem.readList 0x000 40 =
    [0xF0, 0x90, 0x90, 0x90, 0xF0,  0x20, 0x60, 0x20, 0x20, 0x70,
     0xF0, 0x10, 0xF0, 0x80, 0xF0,  0xF0, 0x10, 0xF0, 0x10, 0xF0,
     0x90, 0x90, 0xF0, 0x10, 0x10,  0xF0, 0x80, 0xF0, 0x10, 0xF0,
     0xF0, 0x80, 0xF0, 0x90, 0xF0,  0xF0, 0x10, 0x20, 0x40, 0x40] ∧
  State.reset.mem.readList 0x028 40 =
    [0xF0, 0x90, 0xF0, 0x90, 0xF0,  0xF0, 0x90, 0xF0, 0x10, 0xF0,
     0xF0, 0x90, 0xF0, 0x90, 0x90,  0xE0, 0x90, 0xE0, 0x90, 0xE0,
     0xF0, 0x80, 0x80, 0x80, 0xF0,  0xE0, 0x90, 0x90, 0x90, 0xE0,
     0xF0, 0x80, 0xF0, 0x80, 0xF0,  0xF0, 0x80, 0xF0, 0x80, 0x80] ∧
  (∀ a, 0x50 ≤ a → State.reset.mem.read a = 0)

/-! ## Control transfer -/

/-- RET pops and goes on after the CALL whose address it popped; on an empty stack it faults (40_control_flow.md, 00EE RET;
the shape of the fault is the spec's decisions D3 and D20). -/
def Obligations.ReturnPopsAndAddsTwo : Prop :=
  ∀ s : State,
    (∀ k : Fin 16, k.val + 1 = s.sp.val → ∃ t, exec .ret s = .next t ∧
      t.pc.toNat = ((s.stack.get k).toNat + 2) % 65536 ∧ t.sp.val = k.val ∧
      SameExcept (fun p => p = .pc ∨ p = .sp) s t) ∧
    (s.sp.val = 0 → ∃ t, exec .ret s = .next t ∧ TakesFault .stackUnderflow s t)

/-- SYS sets `pc` to the byte at its own word's address, zero-extended, and faults nowhere in a memory of 4096 bytes
(40_control_flow.md, 0NNN SYS; one byte is the spec's decision D8, log entry 15; the size D1). -/
def Obligations.SysJumpsThroughAByteOfMemory : Prop :=
  ∀ (nnn : Addr) (s : State), ∃ t, exec (.sys nnn) s = .next t ∧
    t.pc.toNat = (s.mem.read nnn.toNat).toNat ∧ SameExcept (fun p => p = .pc) s t

/-- JP and JPV0 set `pc` absolutely, the sum of JPV0 not reduced, and nothing else (40_control_flow.md R56, R58). -/
def Obligations.JumpsSetPcAbsolutely : Prop :=
  ∀ (nnn : Addr) (s : State),
    (∃ t, exec (.jp nnn) s = .next t ∧ t.pc.toNat = nnn.toNat ∧ SameExcept (fun p => p = .pc) s t) ∧
    (∃ t, exec (.jpv0 nnn) s = .next t ∧ t.pc.toNat = nnn.toNat + (s.reg 0).toNat ∧
      SameExcept (fun p => p = .pc) s t) ∧
    HasEncoding (.jp nnn) 0x1000 0xF000 ∧ HasEncoding (.jpv0 nnn) 0xB000 0xF000

/-- CALL pushes its OWN address and jumps; on a full stack it faults and does not jump (40_control_flow.md, 2NNN CALL; the
shape of the fault is the spec's decisions D3 and D20). -/
def Obligations.CallPushesItsOwnAddress : Prop :=
  ∀ (nnn : Addr) (s : State),
    (∀ k : Fin 16, k.val = s.sp.val → ∃ t, exec (.call nnn) s = .next t ∧
      t.stack.get k = s.pc ∧ t.sp.val = s.sp.val + 1 ∧ t.pc.toNat = nnn.toNat ∧
      SameExcept (fun p => p = .pc ∨ p = .sp ∨ p = .stackEntry k) s t) ∧
    (s.sp.val = 16 → ∃ t, exec (.call nnn) s = .next t ∧ TakesFault .stackOverflow s t)

/-- A RET after a CALL, wherever the subroutine left `pc`, goes on at the instruction after the CALL with the stack as before
(40_control_flow.md section on RET and CALL). -/
def Obligations.ReturnUndoesCall : Prop :=
  ∀ (nnn : Addr) (s : State) (pc' : Word), s.sp.val < 16 → ∃ t u,
    exec (.call nnn) s = .next t ∧ exec .ret { t with pc := pc' } = .next u ∧
    PcPlus 2 s u ∧ u.sp = s.sp ∧ ∀ k : Fin 16, k.val ≠ s.sp.val → u.stack.get k = s.stack.get k

/-! ## Skips -/

/-- SEI and SNEI compare a register with the immediate and change only `pc` (41_skips.md R60, R61). -/
def Obligations.SkipsOnImmediate : Prop :=
  ∀ (x : Reg) (nn : Byte) (s : State),
    (∃ t, exec (.sei x nn) s = .next t ∧ PcPlus (if (s.reg x).toNat = nn.toNat then 4 else 2) s t ∧
      SameExcept (fun p => p = .pc) s t) ∧
    (∃ t, exec (.snei x nn) s = .next t ∧ PcPlus (if (s.reg x).toNat ≠ nn.toNat then 4 else 2) s t ∧
      SameExcept (fun p => p = .pc) s t) ∧
    HasEncoding (.sei x nn) 0x3000 0xF000 ∧ HasEncoding (.snei x nn) 0x4000 0xF000

/-- SER and SNER compare two registers and change only `pc` (41_skips.md, 5XY0 and 9XY0); a word of their class with another low
nibble is not this instruction: it halts with DecodeFault of that word and `pc` unchanged (30_encoding.md sections 3 and 4;
halt_cause is the spec's decision D20, log entry 25). -/
def Obligations.SkipsOnRegisters : Prop :=
  ∀ (x y : Reg) (s : State),
    (∃ t, exec (.ser x y) s = .next t ∧ PcPlus (if (s.reg x).toNat = (s.reg y).toNat then 4 else 2) s t ∧
      SameExcept (fun p => p = .pc) s t) ∧
    (∃ t, exec (.sner x y) s = .next t ∧ PcPlus (if (s.reg x).toNat ≠ (s.reg y).toNat then 4 else 2) s t ∧
      SameExcept (fun p => p = .pc) s t) ∧
    HasEncoding (.ser x y) 0x5000 0xF00F ∧ HasEncoding (.sner x y) 0x9000 0xF00F ∧
    (∀ (n c : Nibble), n ≠ 0 → c = 5 ∨ c = 9 → decode (wordXYN c x y n) = .opcodeNone (wordXYN c x y n) ∧
      ∃ t, exec (decode (wordXYN c x y n)) s = .next t ∧ t.runState = .halt ∧
        t.haltCause = .decodeFault (wordXYN c x y n) ∧ t.pc = s.pc)

/-! ## Immediate and random -/

/-- LDI writes the immediate to its register and LDA writes `I`; each adds 2 to `pc` and touches nothing else
(42_immediate.md R65, R67). -/
def Obligations.ImmediateLoads : Prop :=
  (∀ (x : Reg) (nn : Byte) (s : State),
    (∃ t, exec (.ldi x nn) s = .next t ∧ t.reg x = nn ∧ PcPlus 2 s t ∧
      SameExcept (fun p => p = .pc ∨ p = .reg x) s t) ∧ HasEncoding (.ldi x nn) 0x6000 0xF000) ∧
  (∀ (nnn : Addr) (s : State),
    (∃ t, exec (.lda nnn) s = .next t ∧ t.i.toNat = nnn.toNat ∧ PcPlus 2 s t ∧
      SameExcept (fun p => p = .pc ∨ p = .index) s t) ∧ HasEncoding (.lda nnn) 0xA000 0xF000)

/-- ADDI adds modulo 256 and writes no flag: VF changes only when it is the named register (42_immediate.md, 7XNN ADDI; that
the carry is lost is the spec's decision D29). -/
def Obligations.AddImmediateWrapsWithoutFlag : Prop :=
  ∀ (x : Reg) (nn : Byte) (s : State), ∃ t, exec (.addi x nn) s = .next t ∧
    (t.reg x).toNat = ((s.reg x).toNat + nn.toNat) % 256 ∧ PcPlus 2 s t ∧
    SameExcept (fun p => p = .pc ∨ p = .reg x) s t

/-- RND writes the drawn byte under the mask: a bit that is 0 in the mask is 0 in the result, which never exceeds the mask,
whatever byte is drawn (42_immediate.md, CXNN RND; the draw is a free value, log entry 3). -/
def Obligations.RandomByteUnderMask : Prop :=
  ∀ (x : Reg) (nn : Byte) (s : State), ∃ t, exec (.rnd x nn) s = .next t ∧
    (∀ k, (t.reg x).getLsbD k = ((Config.randByte s.draws).getLsbD k && nn.getLsbD k)) ∧
    (t.reg x).toNat ≤ nn.toNat ∧ t.draws = s.draws + 1 ∧ PcPlus 2 s t ∧
    SameExcept (fun p => p = .pc ∨ p = .reg x ∨ p = .draws) s t

/-! ## ALU -/

/-- LDX copies; ORX, ANX and XOR act on all 8 bits independently; none writes a flag (43_alu.md, 8XY0 to 8XY3; that the logic
operations leave VF alone is the spec's decision D29). -/
def Obligations.CopyAndBitwiseOperations : Prop :=
  ∀ (x y : Reg) (s : State),
    (∃ t, exec (.ldx x y) s = .next t ∧ t.reg x = s.reg y ∧ PcPlus 2 s t ∧
      SameExcept (fun p => p = .pc ∨ p = .reg x) s t) ∧
    (∃ t, exec (.orx x y) s = .next t ∧
      (∀ k, (t.reg x).getLsbD k = ((s.reg x).getLsbD k || (s.reg y).getLsbD k)) ∧ PcPlus 2 s t ∧
      SameExcept (fun p => p = .pc ∨ p = .reg x) s t) ∧
    (∃ t, exec (.anx x y) s = .next t ∧
      (∀ k, (t.reg x).getLsbD k = ((s.reg x).getLsbD k && (s.reg y).getLsbD k)) ∧ PcPlus 2 s t ∧
      SameExcept (fun p => p = .pc ∨ p = .reg x) s t) ∧
    (∃ t, exec (.xor x y) s = .next t ∧
      (∀ k, (t.reg x).getLsbD k = ((s.reg x).getLsbD k ^^ (s.reg y).getLsbD k)) ∧ PcPlus 2 s t ∧
      SameExcept (fun p => p = .pc ∨ p = .reg x) s t)

/-- ADC: sum modulo 256 and carry in VF, from the old operands; with `X = 0xF` VF ends as the carry (43_alu.md, 8XY4 ADC; the
order of result and flag is the spec's decision D13, log entry 19). -/
def Obligations.AddSetsCarry : Prop :=
  ∀ (x y : Reg) (s : State), ∃ t, exec (.adc x y) s = .next t ∧
    (x ≠ vf → (t.reg x).toNat = ((s.reg x).toNat + (s.reg y).toNat) % 256) ∧
    (t.reg vf).toNat = (if (s.reg x).toNat + (s.reg y).toNat > 255 then 1 else 0) ∧ PcPlus 2 s t ∧
    SameExcept (fun p => p = .pc ∨ p = .reg x ∨ p = .reg vf) s t

/-- SUB and SUBN: difference modulo 256 and VF = 1 exactly when the minuend is strictly greater (43_alu.md, 8XY5 and 8XY7; the
equal case is the spec's decision D12, log entry 18; the order D13, log entry 19). -/
def Obligations.SubtractSetsStrictNotBorrow : Prop :=
  ∀ (x y : Reg) (s : State),
    (∃ t, exec (.sub x y) s = .next t ∧
      (x ≠ vf → (t.reg x).toNat = ((s.reg x).toNat + 256 - (s.reg y).toNat) % 256) ∧
      (t.reg vf).toNat = (if (s.reg x).toNat > (s.reg y).toNat then 1 else 0) ∧ PcPlus 2 s t ∧
      SameExcept (fun p => p = .pc ∨ p = .reg x ∨ p = .reg vf) s t) ∧
    (∃ t, exec (.subn x y) s = .next t ∧
      (x ≠ vf → (t.reg x).toNat = ((s.reg y).toNat + 256 - (s.reg x).toNat) % 256) ∧
      (t.reg vf).toNat = (if (s.reg y).toNat > (s.reg x).toNat then 1 else 0) ∧ PcPlus 2 s t ∧
      SameExcept (fun p => p = .pc ∨ p = .reg x ∨ p = .reg vf) s t)

/-- SRH and SHL shift `V[X]` by one, logically, and VF is the bit shifted out (43_alu.md, 8XY6 and 8XYE; in place is the
spec's decision D11, log entry 17; the order D13, log entry 19). -/
def Obligations.ShiftsMoveOneBitToFlag : Prop :=
  ∀ (x y : Reg) (s : State),
    (∃ t, exec (.srh x y) s = .next t ∧ (x ≠ vf → (t.reg x).toNat = (s.reg x).toNat / 2) ∧
      (t.reg vf).toNat = (s.reg x).toNat % 2 ∧ PcPlus 2 s t ∧
      SameExcept (fun p => p = .pc ∨ p = .reg x ∨ p = .reg vf) s t) ∧
    (∃ t, exec (.shl x y) s = .next t ∧ (x ≠ vf → (t.reg x).toNat = (s.reg x).toNat * 2 % 256) ∧
      (t.reg vf).toNat = (s.reg x).toNat / 128 ∧ PcPlus 2 s t ∧
      SameExcept (fun p => p = .pc ∨ p = .reg x ∨ p = .reg vf) s t)

/-- A flag is 0x00 or 0x01: after any of the six flag-writing instructions that does not halt, VF holds one of the two
(10_state.md section 2; DRW's 0 is from general knowledge, log entry 20). -/
def Obligations.FlagIsZeroOrOne : Prop :=
  ∀ (i : Instr) (s t : State), writesFlag i = true → s.runState = .exec → exec i s = .next t → t.runState = .exec →
    t.reg vf = 0 ∨ t.reg vf = 1

/-! ## Display -/

/-- CLS clears every cell, notifies the display once, adds 2 to `pc` and writes no flag (44_display.md R81). -/
def Obligations.ClearEmptiesTheFramebuffer : Prop :=
  (∀ s : State, ∃ t, exec .cls s = .next t ∧ (∀ c, fbGet t.fb c = false) ∧
    t.outputs = s.outputs ++ [.displayClear] ∧ PcPlus 2 s t ∧
    SameExcept (fun p => p = .pc ∨ p = .outputs ∨ ∃ c, p = .cell c) s t) ∧
  HasEncoding .cls 0x00E0 0xFFFF

/-- DRW that meets no fault: each covered cell is flipped and no other, VF tells whether a covered cell was set, one
DisplayDraw carries the cells after (44_display.md, DXYN DRW; the spec's decision D14, log entry 20). -/
def Obligations.DrawFlipsTheCoveredCells : Prop :=
  ∀ (x y : Reg) (n : Nibble) (s : State), Drawable s x y n → ∃ t, exec (.drw x y n) s = .next t ∧
    (∀ c, (Covers s x y n c → fbGet t.fb c = !(fbGet s.fb c)) ∧
      (¬ Covers s x y n c → fbGet t.fb c = fbGet s.fb c)) ∧
    ((∃ c, Covers s x y n c ∧ fbGet s.fb c = true) → t.reg vf = 1) ∧
    ((∀ c, Covers s x y n c → fbGet s.fb c = false) → t.reg vf = 0) ∧
    t.outputs = s.outputs ++ [.displayDraw t.fb] ∧ PcPlus 2 s t ∧
    SameExcept (fun p => p = .pc ∨ p = .reg vf ∨ p = .outputs ∨ ∃ c, p = .cell c) s t

/-- DRW whose sprite runs out of memory faults with the lowest missing address before a pixel is touched (44_display.md, DXYN
DRW; the spec's decisions D3, D14, D25). -/
def Obligations.DrawOutsideMemoryFaults : Prop :=
  ∀ (x y : Reg) (n : Nibble) (s : State), n.toNat ≠ 0 → Config.memSize < s.i.toNat + n.toNat →
    ∃ t, exec (.drw x y n) s = .next t ∧
      TakesFault (.memoryOutOfRange (max s.i.toNat Config.memSize)) s t

/-- DRW whose sprite lies in memory faults with the index of the first set bit, in row-major order, that lands past the last
cell; nothing is drawn (44_display.md, DXYN DRW; the spec's decisions D3, D14, D25). -/
def Obligations.DrawPastTheLastCellFaults : Prop :=
  ∀ (x y : Reg) (n : Nibble) (s : State) (row col : Nat), s.i.toNat + n.toNat ≤ Config.memSize →
    SpriteBit s n row col → Config.fbSize ≤ spriteIndex s x y row col →
    (∀ row' col', SpriteBit s n row' col' → row' < row ∨ (row' = row ∧ col' < col) →
      spriteIndex s x y row' col' < Config.fbSize) →
    ∃ t, exec (.drw x y n) s = .next t ∧
      TakesFault (.framebufferIndexOutOfRange (spriteIndex s x y row col)) s t

/-- Drawing the same sprite twice at the same place restores the framebuffer, and the second draw reports a collision if the
sprite has a pixel that was off before the first (44_display.md, DXYN DRW, corner case h; S5 of 95_test_vectors.md). -/
def Obligations.DrawingTwiceRestoresTheFramebuffer : Prop :=
  ∀ (x y : Reg) (n : Nibble) (s t : State), Drawable s x y n → exec (.drw x y n) s = .next t →
    t.reg x = s.reg x → t.reg y = s.reg y → ∃ u, exec (.drw x y n) t = .next u ∧ u.fb = s.fb ∧
      ((∃ c, Covers s x y n c ∧ fbGet s.fb c = false) → u.reg vf = 1)

/-! ## Keys -/

/-- SKP skips on a pressed key and consumes it; SKNP skips on a key that is not pressed and consumes nothing (45_keys.md, EX9E
and EXA1). -/
def Obligations.KeySkips : Prop :=
  ∀ (x : Reg) (s : State) (k : Key), k.val = (s.reg x).toNat →
    (∃ t, exec (.skp x) s = .next t ∧ PcPlus (if s.keyDown k = true then 4 else 2) s t ∧ t.keyDown k = false ∧
      SameExcept (fun p => p = .pc ∨ p = .key k) s t) ∧
    (∃ t, exec (.sknp x) s = .next t ∧ PcPlus (if s.keyDown k = true then 2 else 4) s t ∧
      SameExcept (fun p => p = .pc) s t)

/-- A key index above 15 is a fault, not masked (45_keys.md section on the key index check; the spec's decision D15, log entry
21). -/
def Obligations.KeyIndexAboveFifteenFaults : Prop :=
  ∀ (x : Reg) (s : State), 15 < (s.reg x).toNat →
    (∃ t, exec (.skp x) s = .next t ∧ TakesFault (.keyIndexOutOfRange (s.reg x).toNat) s t) ∧
    (∃ t, exec (.sknp x) s = .next t ∧ TakesFault (.keyIndexOutOfRange (s.reg x).toNat) s t)

/-- WKEY begins by raising `awaiting_key`, and nothing else. While it is raised, a key-down ends the wait: the key index in
`V[X]`, that key latched alone, `pc + 2`, `awaiting_key` lowered (45_keys.md, FX0A; the form of the wait is the spec's decision
D7, the event fields and the steps of the wait are the model's, log entries 1 and 5). -/
def Obligations.WaitKeyReceivesAKey : Prop :=
  ∀ (x : Reg) (s : State),
    (s.awaitingKey = false → exec (.wkey x) s = .next { s with awaitingKey := true }) ∧
    (∀ (k : Key) (es : List HostEvent) (n : Nat), s.awaitingKey = true → Supplies s (.keyDown k) es n →
      ∃ t, exec (.wkey x) s = .next t ∧ (t.reg x).toNat = k.val ∧ (∀ j : Key, t.keyDown j = true ↔ j = k) ∧
        PcPlus 2 s t ∧ t.events = es ∧ t.freeEvents = n ∧ t.awaitingKey = false ∧
        SameExcept (fun p => p = .pc ∨ p = .reg x ∨ p = .events ∨ p = .freeEvents ∨ p = .awaitingKey ∨
          ∃ j, p = .key j) s t)

/-- A waiting WKEY on a quit event halts with cause Quit and `pc` unchanged, `awaiting_key` lowered; on any other event it goes
on waiting and only that event is gone (45_keys.md, FX0A; D7; log entries 1 and 5). -/
def Obligations.WaitKeyQuitsOrGoesOnWaiting : Prop :=
  ∀ (x : Reg) (s : State) (es : List HostEvent) (n : Nat), s.awaitingKey = true →
    (Supplies s .quit es n →
      exec (.wkey x) s = .next { s with runState := .halt, haltCause := .quit, outputs := s.outputs ++ [.report .quit],
                                        awaitingKey := false, events := es, freeEvents := n }) ∧
    (Supplies s .other es n → exec (.wkey x) s = .next { s with events := es, freeEvents := n })

/-- While WKEY waits and another event comes, the step changes nothing but the model's event fields: the timers do not run and
the host's pending transactions stay. After any number of other events the first key-down ends the wait, with one decrement of
the timers for the whole of it, and `awaiting_key` is 1 until then (45_keys.md, the wait; D6, D7; log entries 1, 5, 14). -/
def Obligations.WaitPassesOverOtherEvents : Prop :=
  ∀ (s : State) (x : Reg), AtWkey s → instrAt s = .wkey x → s.awaitingKey = true → s.started = true →
    (∀ es n, Supplies s .other es n → step s = .next { s with events := es, freeEvents := n }) ∧
    (∀ (m : Nat) (k : Key) (rest : List HostEvent), s.events = List.replicate m .other ++ .keyDown k :: rest →
      (∀ j, j ≤ m → ∃ u, stepN j s = .next u ∧ u.awaitingKey = true ∧
        SameExcept (fun p => p = .events) s u) ∧
      ∃ t, stepN (m + 1) s = .next t ∧ t.awaitingKey = false ∧ (t.reg x).toNat = k.val ∧
        (∀ j : Key, t.keyDown j = true ↔ j = k) ∧ PcPlus 2 s t ∧ t.events = rest ∧
        t.dt.toNat = (s.dt.toNat + 255) % 256 ∧ t.st.toNat = (s.st.toNat + 255) % 256 ∧
        SameExcept (fun p => p = .pc ∨ p = .reg x ∨ p = .events ∨ p = .awaitingKey ∨ p = .delay ∨ p = .sound ∨
          ∃ j, p = .key j) s t)

/-! ## Timers -/

/-- LDDT reads the delay timer, STDT and STST set the timers; no flag, nothing else. The timer step that follows in the same
cycle then leaves one less (46_timers.md R90, R91, R92). -/
def Obligations.TimerMoves : Prop :=
  ∀ (x : Reg) (s : State),
    (∃ t, exec (.lddt x) s = .next t ∧ t.reg x = s.dt ∧ PcPlus 2 s t ∧
      (tickTimers t).dt.toNat = (s.dt.toNat + 255) % 256 ∧
      SameExcept (fun p => p = .pc ∨ p = .reg x) s t) ∧
    (∃ t, exec (.stdt x) s = .next t ∧ t.dt = s.reg x ∧ PcPlus 2 s t ∧
      (tickTimers t).dt.toNat = ((s.reg x).toNat + 255) % 256 ∧
      SameExcept (fun p => p = .pc ∨ p = .delay) s t) ∧
    (∃ t, exec (.stst x) s = .next t ∧ t.st = s.reg x ∧ PcPlus 2 s t ∧
      (tickTimers t).st.toNat = ((s.reg x).toNat + 255) % 256 ∧
      SameExcept (fun p => p = .pc ∨ p = .sound) s t) ∧
    HasEncoding (.lddt x) 0xF007 0xF0FF ∧ HasEncoding (.stdt x) 0xF015 0xF0FF ∧
    HasEncoding (.stst x) 0xF018 0xF0FF

/-- Both timers count completed cycles and wrap: a cycle that ends takes 1 from each modulo 256, from the value STDT or STST
has just written if it did; a cycle abandoned by a fault, or still waiting, takes nothing (60_exceptions.md section 7,
46_timers.md; which halting cycles count is the spec's decisions D3 and D6, log entries 13 and 14). A wait is under way only at
a WKEY, which the invariant says. -/
def Obligations.TimersCountCompletedCycles : Prop :=
  ∀ (s u t : State) (i : Instr), CycleFrom s u → Fetchable s.pc.toNat → instrAt s = i →
    (s.awaitingKey = true → AtWkey s) → step s = .next t →
    (t.awaitingKey = true ∨ Faulted t → t.dt = s.dt ∧ t.st = s.st) ∧
    (t.awaitingKey = false → ¬ Faulted t →
      (∀ x, i = .stdt x → t.dt.toNat = ((s.reg x).toNat + 255) % 256) ∧
      (∀ x, i = .stst x → t.st.toNat = ((s.reg x).toNat + 255) % 256) ∧
      ((∀ x, i ≠ .stdt x) → t.dt.toNat = (s.dt.toNat + 255) % 256) ∧
      ((∀ x, i ≠ .stst x) → t.st.toNat = (s.st.toNat + 255) % 256))

/-! ## Index register and memory -/

/-- ADDA adds to `I` modulo 65536, without a flag and without a mask (47_index_memory.md, FX1E; the wrap is the spec's
decision D16 and the flag D29). -/
def Obligations.AddToIndexWraps : Prop :=
  ∀ (x : Reg) (s : State), ∃ t, exec (.adda x) s = .next t ∧
    t.i.toNat = (s.i.toNat + (s.reg x).toNat) % 65536 ∧ PcPlus 2 s t ∧
    SameExcept (fun p => p = .pc ∨ p = .index) s t

/-- FONT sets `I` to five times the whole byte, not masked (47_index_memory.md, FX29; that the byte is not masked is the spec's
decision D16, log entry 22). -/
def Obligations.FontAddressIsFiveTimesTheByte : Prop :=
  ∀ (x : Reg) (s : State), (∃ t, exec (.font x) s = .next t ∧ t.i.toNat = (s.reg x).toNat * 5 ∧ PcPlus 2 s t ∧
    SameExcept (fun p => p = .pc ∨ p = .index) s t) ∧ HasEncoding (.font x) 0xF029 0xF0FF

/-- For a hexadecimal digit FONT points at that digit's five bytes of the font, as reset left them (47_index_memory.md, FX29;
glyphs 1 to E are from general knowledge, log entry 12). -/
def Obligations.FontPointsAtTheGlyph : Prop :=
  ∀ (x : Reg) (s : State), (s.reg x).toNat < 16 → ∃ t, exec (.font x) s = .next t ∧
    State.reset.mem.readList t.i.toNat 5 = (fontTable.drop ((s.reg x).toNat * 5)).take 5

/-- BCD stores hundreds, tens and units at `I`, `I + 1`, `I + 2`; if the third address does not exist it stores nothing and
faults (47_index_memory.md, FX33; the fault's precision is the spec's decision D3). -/
def Obligations.DecimalDigitsAreStored : Prop :=
  ∀ (x : Reg) (s : State),
    (s.i.toNat + 2 < Config.memSize → s.mem.wf = true → ∃ t, exec (.bcd x) s = .next t ∧
      (t.mem.read s.i.toNat).toNat = (s.reg x).toNat / 100 ∧
      (t.mem.read (s.i.toNat + 1)).toNat = (s.reg x).toNat / 10 % 10 ∧
      (t.mem.read (s.i.toNat + 2)).toNat = (s.reg x).toNat % 10 ∧ PcPlus 2 s t ∧
      SameExcept (fun p => p = .pc ∨ ∃ k, k < 3 ∧ p = .byte (s.i.toNat + k)) s t) ∧
    (Config.memSize ≤ s.i.toNat + 2 → ∃ t, exec (.bcd x) s = .next t ∧
      TakesFault (.memoryOutOfRange (max s.i.toNat Config.memSize)) s t)

/-- STM stores `V[0]` to `V[X]` from `I` up, `I` unchanged; out of range it stores nothing and faults (47_index_memory.md,
FX55; `I` unchanged is the spec's decision D16, the fault's precision D3). -/
def Obligations.RegistersAreStored : Prop :=
  ∀ (x : Reg) (s : State),
    (s.i.toNat + x.val < Config.memSize → s.mem.wf = true → ∃ t, exec (.stm x) s = .next t ∧
      (∀ r : Reg, r ≤ x → t.mem.read (s.i.toNat + r.val) = s.reg r) ∧ PcPlus 2 s t ∧
      SameExcept (fun p => p = .pc ∨ ∃ k, k ≤ x.val ∧ p = .byte (s.i.toNat + k)) s t) ∧
    (Config.memSize ≤ s.i.toNat + x.val → ∃ t, exec (.stm x) s = .next t ∧
      TakesFault (.memoryOutOfRange (max s.i.toNat Config.memSize)) s t)

/-- LDM loads `V[0]` to `V[X]` from `I` up, the other registers and `I` unchanged; out of range it loads nothing and faults
(47_index_memory.md, FX65; `I` unchanged is the spec's decision D16, the fault's precision D3). -/
def Obligations.RegistersAreLoaded : Prop :=
  ∀ (x : Reg) (s : State),
    (s.i.toNat + x.val < Config.memSize → ∃ t, exec (.ldm x) s = .next t ∧
      (∀ r : Reg, r ≤ x → t.reg r = s.mem.read (s.i.toNat + r.val)) ∧ PcPlus 2 s t ∧
      SameExcept (fun p => p = .pc ∨ ∃ r : Reg, r ≤ x ∧ p = .reg r) s t) ∧
    (Config.memSize ≤ s.i.toNat + x.val → ∃ t, exec (.ldm x) s = .next t ∧
      TakesFault (.memoryOutOfRange (max s.i.toNat Config.memSize)) s t)

/-- LDM with the same `I` and `X` after STM restores the registers, whatever they held in between (47_index_memory.md, FX65,
corner case). -/
def Obligations.LoadAfterStoreRestoresRegisters : Prop :=
  ∀ (x : Reg) (s : State) (v' : Vector Byte 16), s.i.toNat + x.val < Config.memSize → s.mem.wf = true →
    ∃ t u, exec (.stm x) s = .next t ∧ exec (.ldm x) { t with v := v' } = .next u ∧
      ∀ r : Reg, r ≤ x → u.reg r = s.reg r

/-- A byte pair stored by STM or BCD is the word the next fetch from there reads (20_memory.md section 9: fetch is coherent with
stores; derived in the spec, decision D28). -/
def Obligations.StoredWordIsFetched : Prop :=
  (∀ (x r : Reg) (s : State) (a : Word), s.i.toNat + x.val < Config.memSize → s.mem.wf = true →
    (h : r.val + 1 < 16) → r.val + 1 ≤ x.val → a.toNat = s.i.toNat + r.val →
    ∃ t, exec (.stm x) s = .next t ∧ fetch { t with pc := a } = .ok (s.reg r ++ s.reg ⟨r.val + 1, h⟩)) ∧
  (∀ (x : Reg) (s : State) (a : Word), s.i.toNat + 2 < Config.memSize → s.mem.wf = true →
    ∃ t, exec (.bcd x) s = .next t ∧
      (a.toNat = s.i.toNat → ∃ w, fetch { t with pc := a } = .ok w ∧
        w.toNat = (s.reg x).toNat / 100 * 256 + (s.reg x).toNat / 10 % 10) ∧
      (a.toNat = s.i.toNat + 1 → ∃ w, fetch { t with pc := a } = .ok w ∧
        w.toNat = (s.reg x).toNat / 10 % 10 * 256 + (s.reg x).toNat % 10))

/-! ## The unrecognized word -/

/-- `opcode_none` halts with the offending word, reports it once, and leaves `pc` and everything else unchanged
(30_encoding.md section 4; halt_cause and the report are the spec's decision D20). -/
def Obligations.UnrecognizedWordHalts : Prop :=
  ∀ (w : Word) (s : State), ∃ t, exec (.opcodeNone w) s = .next t ∧ t.runState = .halt ∧
    t.haltCause = .decodeFault w ∧ t.outputs = s.outputs ++ [.report (.decodeFault w)] ∧ SameExcept haltPart s t

/-! ## The whole machine -/

/-- No instruction stops the model: execute answers a next state for every operation in every state (60_exceptions.md section
2: faults are taken; log entry 7). -/
def Obligations.EveryInstructionAnswersANextState : Prop :=
  ∀ (i : Instr) (s : State), ∃ t, exec i s = .next t

/-- THE PC CONTRACT: an operation that completes sets `pc` in its one way, plus 2, plus 4 on a skip taken, or the absolute
target; one that halts, or still waits, leaves `pc` as it was (30_encoding.md section 5). SYS's one byte is the spec's decision
D8 (log entry 15); that a runtime fault leaves `pc` is D3 (log entry 13; 60_exceptions.md section 2); the wait is D7 and its
steps the model's (log entry 5). A wait is under way only at a WKEY, which the invariant says. -/
def Obligations.PcContract : Prop :=
  ∀ (i : Instr) (s t : State), s.runState = .exec → (s.awaitingKey = true → ∃ x, i = .wkey x) → exec i s = .next t →
    (t.runState = .exec → t.awaitingKey = false → t.pc.toNat = (pcWay i s).apply s.pc.toNat) ∧
    (t.runState ≠ .exec → t.pc = s.pc) ∧ (t.awaitingKey = true → t.pc = s.pc)

/-- Runtime faults are precise: when execute ends in a fault state, nothing has changed but run_state, halt_cause and the
report (60_exceptions.md section 2; the spec's decision D3, log entry 13). -/
def Obligations.RuntimeFaultsArePrecise : Prop :=
  ∀ (i : Instr) (s t : State), s.runState = .exec → exec i s = .next t → Faulted t →
    ∃ f, TakesFault f s t

/-- The 25 instructions that 60_exceptions.md section 1 does not name complete in every state and leave run_state and
halt_cause alone. -/
def Obligations.OnlyTheNamedInstructionsCanHalt : Prop :=
  ∀ (i : Instr) (s : State), mayHalt i = false →
    ∃ t, exec i s = .next t ∧ t.runState = s.runState ∧ t.haltCause = s.haltCause ∧ t.awaitingKey = s.awaitingKey

/-- THE ACCESS TABLE: no operation writes a part of the state outside its row of 10_state.md section 14, but for the three
parts of a halt where it can halt. -/
def Obligations.InstructionsWriteOnlyTheirRow : Prop :=
  ∀ (i : Instr) (s t : State), exec i s = .next t →
    SameExcept (fun p => mayWrite i s p ∨ (mayHalt i = true ∧ haltPart p)) s t

/-- THE INVARIANT holds at reset. -/
def Obligations.ResetMeetsTheInvariant : Prop := Inv State.reset

/-- THE INVARIANT is kept by every step, of the core or the host: memory canonical and within its size, at most one key
pressed, halt_cause None exactly outside HALT, a wait only in EXEC at a WKEY, live stack entries fetchable. -/
def Obligations.StepKeepsTheInvariant : Prop :=
  ∀ s t : State, Inv s → step s = .next t → Inv t

/-- Outputs never feed back: what an instruction emits, and the state it gives, do not depend on what was emitted before
(44_display.md section on display notification; the spec's decision D32). -/
def Obligations.OutputsNeverFeedBack : Prop :=
  ∀ (i : Instr) (s t : State), exec i s = .next t →
    ∃ e, t.outputs = s.outputs ++ e ∧
      ∀ o : List Output, exec i { s with outputs := o } = .next { t with outputs := o ++ e }

/-- The sound timer is read by no instruction: changing it changes nothing else of the state an instruction gives (10_state.md
section 7, 60_exceptions.md section 7). -/
def Obligations.SoundTimerIsReadByNoInstruction : Prop :=
  ∀ (i : Instr) (s t : State) (b : Byte), exec i s = .next t →
    ∃ t', exec i { s with st := b } = .next t' ∧ { t' with st := t.st } = t
end

