-- ==== Sys2Proof/Laws/Memory.lean ====
section
/-! SUPPORT. Memory: read after write, the canonical form and the range of every operation (20_memory.md R25, R26, R32). -/

namespace Sys2Proof.Machine

/-! ## Read after write -/

/-- A write leaves every other address as it was, in any list of cells. -/
theorem Memory.read_write_ne (m : Memory) {a c : Nat} (v : Byte) (h : c ≠ a) : (m.write a v).read c = m.read c := by
  induction m with
  | nil => simp only [Memory.write]; split <;> simp [Memory.read, Ne.symm h]
  | cons e m ih =>
    obtain ⟨b, u⟩ := e
    simp only [Memory.write]
    split
    · split <;> simp [Memory.read, Ne.symm h]
    · split
      · rename_i hab
        split <;> simp [Memory.read, ← hab, Ne.symm h]
      · simp [Memory.read, ih]

/-- Below its first possible address a canonical memory lists nothing. -/
theorem Memory.read_of_lt {m : Memory} {lo c : Nat} (hm : Memory.wfFrom lo m = true) (h : c < lo) :
    m.read c = unlisted c := by
  induction m generalizing lo with
  | nil => rfl
  | cons e m ih =>
    obtain ⟨b, u⟩ := e
    simp only [Memory.wfFrom, Bool.and_eq_true, decide_eq_true_eq] at hm
    have hb : b ≠ c := by omega
    simp only [Memory.read, if_neg hb]
    exact ih hm.2 (by omega)

/-- Reading the written address of a canonical memory gives the value written. -/
theorem Memory.read_write_same {m : Memory} {lo : Nat} (hm : Memory.wfFrom lo m = true) (a : Nat) (v : Byte) :
    (m.write a v).read a = v := by
  induction m generalizing lo with
  | nil => simp only [Memory.write]; split <;> simp_all [Memory.read]
  | cons e m ih =>
    obtain ⟨b, u⟩ := e
    simp only [Memory.wfFrom, Bool.and_eq_true, decide_eq_true_eq] at hm
    simp only [Memory.write]
    split
    · rename_i hlt
      split
      · rename_i hv
        have hb : b ≠ a := by omega
        simp only [Memory.read, if_neg hb]
        rw [Memory.read_of_lt hm.2 (by omega), hv]
      · simp [Memory.read]
    · split
      · rename_i hab
        split
        · rename_i hv
          rw [Memory.read_of_lt hm.2 (by omega), hv]
        · simp [Memory.read]
      · rename_i hab
        have hb : b ≠ a := Ne.symm hab
        simp only [Memory.read, if_neg hb]
        exact ih hm.2

/-! ## The canonical form -/

/-- A write keeps the canonical form. -/
theorem Memory.wfFrom_write {m : Memory} {lo a : Nat} (v : Byte) (hm : Memory.wfFrom lo m = true) (h : lo ≤ a) :
    Memory.wfFrom lo (m.write a v) = true := by
  induction m generalizing lo with
  | nil => simp only [Memory.write]; split <;> simp_all [Memory.wfFrom]
  | cons e m ih =>
    obtain ⟨b, u⟩ := e
    have hm' := hm
    simp only [Memory.wfFrom, Bool.and_eq_true, decide_eq_true_eq] at hm
    simp only [Memory.write]
    split
    · split
      · exact hm'
      · rename_i hlt hv
        simp only [Memory.wfFrom, Bool.and_eq_true, decide_eq_true_eq]
        exact ⟨⟨h, hv⟩, ⟨by omega, hm.1.2⟩, hm.2⟩
    · split
      · rename_i hab
        split
        · cases m with
          | nil => rfl
          | cons e' m' =>
            obtain ⟨b', u'⟩ := e'
            have h2 := hm.2
            simp only [Memory.wfFrom, Bool.and_eq_true, decide_eq_true_eq] at h2 ⊢
            exact ⟨⟨by omega, h2.1.2⟩, h2.2⟩
        · rename_i hv
          simp only [Memory.wfFrom, Bool.and_eq_true, decide_eq_true_eq]
          exact ⟨⟨h, hv⟩, by rw [hab]; exact hm.2⟩
      · simp only [Memory.wfFrom, Bool.and_eq_true, decide_eq_true_eq]
        exact ⟨hm.1, ih hm.2 (by omega)⟩

/-- A write keeps the canonical form. -/
theorem Memory.wf_write {m : Memory} (a : Nat) (v : Byte) (hm : m.wf = true) : (m.write a v).wf = true :=
  Memory.wfFrom_write v hm (Nat.zero_le a)

/-- Storing consecutive bytes keeps the canonical form. -/
theorem Memory.wf_writeList {m : Memory} (a : Nat) (bs : List Byte) (hm : m.wf = true) :
    (m.writeList a bs).wf = true := by
  induction bs generalizing m a with
  | nil => exact hm
  | cons b bs ih => exact ih _ (Memory.wf_write a b hm)

/-- The reset memory is canonical. -/
theorem Memory.wf_reset : State.reset.mem.wf = true := rfl

/-! ## Addresses that exist -/

/-- A write at an address that exists keeps every listed address one that exists. -/
theorem Memory.inStore_write {m : Memory} {a : Nat} (v : Byte) (hm : m.inStore = true) (h : a < Config.memSize) :
    (m.write a v).inStore = true := by
  induction m with
  | nil => simp only [Memory.write]; split <;> simp_all [Memory.inStore]
  | cons e m ih =>
    obtain ⟨b, u⟩ := e
    have hcons : ∀ (e : Host.Cell) (l : Memory),
        Memory.inStore (e :: l) = (decide (e.1 < Config.memSize) && Memory.inStore l) := fun _ _ => rfl
    rw [hcons, Bool.and_eq_true] at hm
    simp only [Memory.write]
    split
    · split
      · rw [hcons, hm.1, hm.2]; rfl
      · rw [hcons, hcons, hm.1, hm.2]; simp [h]
    · split
      · split
        · exact hm.2
        · rw [hcons, hm.2]; simp [h]
      · rw [hcons, hm.1, ih hm.2]; rfl

/-- Storing consecutive bytes that exist keeps every listed address one that exists. -/
theorem Memory.inStore_writeList {m : Memory} (a : Nat) (bs : List Byte) (hm : m.inStore = true)
    (h : a + bs.length ≤ Config.memSize) : (m.writeList a bs).inStore = true := by
  induction bs generalizing m a with
  | nil => exact hm
  | cons b bs ih =>
    simp only [List.length_cons] at h
    exact ih _ (Memory.inStore_write b hm (by omega)) (by omega)

/-! ## Lists of bytes -/

/-- Addresses outside the stored bytes read as before. -/
theorem Memory.read_writeList_outside {m : Memory} {a c : Nat} {bs : List Byte} (h : c < a ∨ a + bs.length ≤ c) :
    (m.writeList a bs).read c = m.read c := by
  induction bs generalizing m a with
  | nil => rfl
  | cons b bs ih =>
    simp only [List.length_cons] at h
    simp only [Memory.writeList]
    rw [ih (by omega), Memory.read_write_ne _ _ (by omega)]

/-- The k-th stored byte reads back. -/
theorem Memory.read_writeList_inside {m : Memory} (hm : m.wf = true) {a k : Nat} {bs : List Byte} (h : k < bs.length) :
    (m.writeList a bs).read (a + k) = bs[k] := by
  induction bs generalizing m a k with
  | nil => simp at h
  | cons b bs ih =>
    simp only [Memory.writeList]
    cases k with
    | zero =>
      rw [Nat.add_zero, Memory.read_writeList_outside (by omega)]; exact Memory.read_write_same hm a b
    | succ k =>
      have hk : k < bs.length := by simpa using h
      rw [show a + (k + 1) = a + 1 + k by omega, ih (Memory.wf_write a b hm) hk]; rfl

/-- How many bytes a read of a range gives. -/
@[simp] theorem Memory.length_readList (m : Memory) (a n : Nat) : (m.readList a n).length = n := by
  induction n generalizing a with
  | zero => rfl
  | succ n ih => simp [Memory.readList, ih]

/-- The k-th byte of a read of a range. -/
@[simp] theorem Memory.getElem_readList (m : Memory) (a n k : Nat) (h : k < (m.readList a n).length) :
    (m.readList a n)[k] = m.read (a + k) := by
  induction n generalizing a k with
  | zero => simp [Memory.readList] at h
  | succ n ih =>
    cases k with
    | zero => rfl
    | succ k =>
      have := ih (a + 1) k (by simpa [Memory.readList] using h)
      simp only [Memory.readList, List.getElem_cons_succ, this]
      congr 1; omega

/-! ## The range check -/

/-- The check passes exactly when the whole range exists. -/
theorem checkRange_eq_ok {base n : Nat} : checkRange base n = .ok () ↔ n = 0 ∨ base + n ≤ Config.memSize := by
  unfold checkRange; split <;> simp_all

/-- When it fails it names the lowest address at or above MEM_SIZE. -/
theorem checkRange_eq_error {base n : Nat} {f : Fault} :
    checkRange base n = .error f ↔
      (n ≠ 0 ∧ Config.memSize < base + n) ∧ f = .memoryOutOfRange (max base Config.memSize) := by
  unfold checkRange
  split
  · rename_i h
    simp only [reduceCtorEq, false_iff, not_and]
    intro h'; omega
  · rename_i h
    simp only [Except.error.injEq]
    constructor
    · intro e; exact ⟨by omega, e.symm⟩
    · intro e; exact e.2.symm

/-- All a read of `n` bytes can answer. -/
theorem State.memReadList_cases (s : State) (base n : Nat) :
    ((n = 0 ∨ base + n ≤ Config.memSize) ∧ s.memReadList base n = .ok (s.mem.readList base n)) ∨
    ((n ≠ 0 ∧ Config.memSize < base + n) ∧
      s.memReadList base n = .error (.memoryOutOfRange (max base Config.memSize))) := by
  unfold State.memReadList checkRange
  by_cases h : n = 0 ∨ base + n ≤ Config.memSize
  · left; rw [if_pos h]; exact ⟨h, rfl⟩
  · right; rw [if_neg h]; exact ⟨by omega, rfl⟩

/-- All a read of one byte can answer. -/
theorem State.memRead_cases (s : State) (a : Nat) :
    (a < Config.memSize ∧ s.memRead a = .ok (s.mem.read a)) ∨
    (Config.memSize ≤ a ∧ s.memRead a = .error (.memoryOutOfRange a)) := by
  unfold State.memRead checkRange
  by_cases h : a < Config.memSize
  · left; rw [if_pos (by omega)]; exact ⟨h, rfl⟩
  · right; rw [if_neg (by omega), Nat.max_eq_left (by omega)]; exact ⟨by omega, rfl⟩

/-- All a fetch of two bytes can answer: the fault names `a` when `a` does not exist, and else `a + 1`. -/
theorem State.memReadWord_cases (s : State) (a : Nat) :
    (a + 1 < Config.memSize ∧ s.memReadWord a = .ok (wordOfBytes (s.mem.read a) (s.mem.read (a + 1)))) ∨
    (Config.memSize ≤ a + 1 ∧
      s.memReadWord a = .error (.memoryOutOfRange (if Config.memSize ≤ a then a else a + 1))) := by
  unfold State.memReadWord checkRange
  by_cases h : a + 1 < Config.memSize
  · left; rw [if_pos (by omega)]; exact ⟨h, rfl⟩
  · right
    rw [if_neg (by omega)]
    refine ⟨by omega, ?_⟩
    have : max a Config.memSize = if Config.memSize ≤ a then a else a + 1 := by split <;> omega
    rw [this]

/-- All a store of a list of bytes can answer. -/
theorem State.memWriteList_cases (s : State) (base : Nat) (bs : List Byte) :
    ((bs.length = 0 ∨ base + bs.length ≤ Config.memSize) ∧
      s.memWriteList base bs = .ok { s with mem := s.mem.writeList base bs }) ∨
    ((bs.length ≠ 0 ∧ Config.memSize < base + bs.length) ∧
      s.memWriteList base bs = .error (.memoryOutOfRange (max base Config.memSize))) := by
  unfold State.memWriteList checkRange
  by_cases h : bs.length = 0 ∨ base + bs.length ≤ Config.memSize
  · left; rw [if_pos h]; exact ⟨h, rfl⟩
  · right; rw [if_neg h]; exact ⟨by omega, rfl⟩

end Sys2Proof.Machine
end

