-- ==== Sys2Proof/Laws/State.lean ====
section
/-! SUPPORT. One lemma per field per update of the state, each true by unfolding, so that no later proof unfolds a record
update; and what the register and key reads see of each update. -/

namespace Sys2Proof.Machine

/-! ### State.setReg -/

@[simp] theorem State.setReg_v (s : State) (r : Reg) (b : Byte) : (s.setReg r b).v = s.v.set r.val b r.isLt := rfl
@[simp] theorem State.setReg_i (s : State) (r : Reg) (b : Byte) : (s.setReg r b).i = s.i := rfl
@[simp] theorem State.setReg_pc (s : State) (r : Reg) (b : Byte) : (s.setReg r b).pc = s.pc := rfl
@[simp] theorem State.setReg_stack (s : State) (r : Reg) (b : Byte) : (s.setReg r b).stack = s.stack := rfl
@[simp] theorem State.setReg_sp (s : State) (r : Reg) (b : Byte) : (s.setReg r b).sp = s.sp := rfl
@[simp] theorem State.setReg_fb (s : State) (r : Reg) (b : Byte) : (s.setReg r b).fb = s.fb := rfl
@[simp] theorem State.setReg_dt (s : State) (r : Reg) (b : Byte) : (s.setReg r b).dt = s.dt := rfl
@[simp] theorem State.setReg_st (s : State) (r : Reg) (b : Byte) : (s.setReg r b).st = s.st := rfl
@[simp] theorem State.setReg_key (s : State) (r : Reg) (b : Byte) : (s.setReg r b).key = s.key := rfl
@[simp] theorem State.setReg_runState (s : State) (r : Reg) (b : Byte) : (s.setReg r b).runState = s.runState := rfl
@[simp] theorem State.setReg_haltCause (s : State) (r : Reg) (b : Byte) : (s.setReg r b).haltCause = s.haltCause := rfl
@[simp] theorem State.setReg_mem (s : State) (r : Reg) (b : Byte) : (s.setReg r b).mem = s.mem := rfl
@[simp] theorem State.setReg_awaitingKey (s : State) (r : Reg) (b : Byte) : (s.setReg r b).awaitingKey = s.awaitingKey := rfl
@[simp] theorem State.setReg_outputs (s : State) (r : Reg) (b : Byte) : (s.setReg r b).outputs = s.outputs := rfl
@[simp] theorem State.setReg_draws (s : State) (r : Reg) (b : Byte) : (s.setReg r b).draws = s.draws := rfl
@[simp] theorem State.setReg_events (s : State) (r : Reg) (b : Byte) : (s.setReg r b).events = s.events := rfl
@[simp] theorem State.setReg_freeEvents (s : State) (r : Reg) (b : Byte) : (s.setReg r b).freeEvents = s.freeEvents := rfl
@[simp] theorem State.setReg_requests (s : State) (r : Reg) (b : Byte) : (s.setReg r b).requests = s.requests := rfl
@[simp] theorem State.setReg_started (s : State) (r : Reg) (b : Byte) : (s.setReg r b).started = s.started := rfl
@[simp] theorem State.setReg_keyDown (s : State) (r : Reg) (b : Byte) (j : Key) : (s.setReg r b).keyDown j = s.keyDown j := rfl

/-! ### State.setI -/

@[simp] theorem State.setI_v (s : State) (w : Word) : (s.setI w).v = s.v := rfl
@[simp] theorem State.setI_i (s : State) (w : Word) : (s.setI w).i = w := rfl
@[simp] theorem State.setI_pc (s : State) (w : Word) : (s.setI w).pc = s.pc := rfl
@[simp] theorem State.setI_stack (s : State) (w : Word) : (s.setI w).stack = s.stack := rfl
@[simp] theorem State.setI_sp (s : State) (w : Word) : (s.setI w).sp = s.sp := rfl
@[simp] theorem State.setI_fb (s : State) (w : Word) : (s.setI w).fb = s.fb := rfl
@[simp] theorem State.setI_dt (s : State) (w : Word) : (s.setI w).dt = s.dt := rfl
@[simp] theorem State.setI_st (s : State) (w : Word) : (s.setI w).st = s.st := rfl
@[simp] theorem State.setI_key (s : State) (w : Word) : (s.setI w).key = s.key := rfl
@[simp] theorem State.setI_runState (s : State) (w : Word) : (s.setI w).runState = s.runState := rfl
@[simp] theorem State.setI_haltCause (s : State) (w : Word) : (s.setI w).haltCause = s.haltCause := rfl
@[simp] theorem State.setI_mem (s : State) (w : Word) : (s.setI w).mem = s.mem := rfl
@[simp] theorem State.setI_awaitingKey (s : State) (w : Word) : (s.setI w).awaitingKey = s.awaitingKey := rfl
@[simp] theorem State.setI_outputs (s : State) (w : Word) : (s.setI w).outputs = s.outputs := rfl
@[simp] theorem State.setI_draws (s : State) (w : Word) : (s.setI w).draws = s.draws := rfl
@[simp] theorem State.setI_events (s : State) (w : Word) : (s.setI w).events = s.events := rfl
@[simp] theorem State.setI_freeEvents (s : State) (w : Word) : (s.setI w).freeEvents = s.freeEvents := rfl
@[simp] theorem State.setI_requests (s : State) (w : Word) : (s.setI w).requests = s.requests := rfl
@[simp] theorem State.setI_started (s : State) (w : Word) : (s.setI w).started = s.started := rfl
@[simp] theorem State.setI_reg (s : State) (w : Word) (q : Reg) : (s.setI w).reg q = s.reg q := rfl
@[simp] theorem State.setI_keyDown (s : State) (w : Word) (j : Key) : (s.setI w).keyDown j = s.keyDown j := rfl

/-! ### State.setPc -/

@[simp] theorem State.setPc_v (s : State) (w : Word) : (s.setPc w).v = s.v := rfl
@[simp] theorem State.setPc_i (s : State) (w : Word) : (s.setPc w).i = s.i := rfl
@[simp] theorem State.setPc_pc (s : State) (w : Word) : (s.setPc w).pc = w := rfl
@[simp] theorem State.setPc_stack (s : State) (w : Word) : (s.setPc w).stack = s.stack := rfl
@[simp] theorem State.setPc_sp (s : State) (w : Word) : (s.setPc w).sp = s.sp := rfl
@[simp] theorem State.setPc_fb (s : State) (w : Word) : (s.setPc w).fb = s.fb := rfl
@[simp] theorem State.setPc_dt (s : State) (w : Word) : (s.setPc w).dt = s.dt := rfl
@[simp] theorem State.setPc_st (s : State) (w : Word) : (s.setPc w).st = s.st := rfl
@[simp] theorem State.setPc_key (s : State) (w : Word) : (s.setPc w).key = s.key := rfl
@[simp] theorem State.setPc_runState (s : State) (w : Word) : (s.setPc w).runState = s.runState := rfl
@[simp] theorem State.setPc_haltCause (s : State) (w : Word) : (s.setPc w).haltCause = s.haltCause := rfl
@[simp] theorem State.setPc_mem (s : State) (w : Word) : (s.setPc w).mem = s.mem := rfl
@[simp] theorem State.setPc_awaitingKey (s : State) (w : Word) : (s.setPc w).awaitingKey = s.awaitingKey := rfl
@[simp] theorem State.setPc_outputs (s : State) (w : Word) : (s.setPc w).outputs = s.outputs := rfl
@[simp] theorem State.setPc_draws (s : State) (w : Word) : (s.setPc w).draws = s.draws := rfl
@[simp] theorem State.setPc_events (s : State) (w : Word) : (s.setPc w).events = s.events := rfl
@[simp] theorem State.setPc_freeEvents (s : State) (w : Word) : (s.setPc w).freeEvents = s.freeEvents := rfl
@[simp] theorem State.setPc_requests (s : State) (w : Word) : (s.setPc w).requests = s.requests := rfl
@[simp] theorem State.setPc_started (s : State) (w : Word) : (s.setPc w).started = s.started := rfl
@[simp] theorem State.setPc_reg (s : State) (w : Word) (q : Reg) : (s.setPc w).reg q = s.reg q := rfl
@[simp] theorem State.setPc_keyDown (s : State) (w : Word) (j : Key) : (s.setPc w).keyDown j = s.keyDown j := rfl

/-! ### State.advance -/

@[simp] theorem State.advance_v (s : State) : (s.advance).v = s.v := rfl
@[simp] theorem State.advance_i (s : State) : (s.advance).i = s.i := rfl
@[simp] theorem State.advance_pc (s : State) : (s.advance).pc = s.pc + 2#16 := rfl
@[simp] theorem State.advance_stack (s : State) : (s.advance).stack = s.stack := rfl
@[simp] theorem State.advance_sp (s : State) : (s.advance).sp = s.sp := rfl
@[simp] theorem State.advance_fb (s : State) : (s.advance).fb = s.fb := rfl
@[simp] theorem State.advance_dt (s : State) : (s.advance).dt = s.dt := rfl
@[simp] theorem State.advance_st (s : State) : (s.advance).st = s.st := rfl
@[simp] theorem State.advance_key (s : State) : (s.advance).key = s.key := rfl
@[simp] theorem State.advance_runState (s : State) : (s.advance).runState = s.runState := rfl
@[simp] theorem State.advance_haltCause (s : State) : (s.advance).haltCause = s.haltCause := rfl
@[simp] theorem State.advance_mem (s : State) : (s.advance).mem = s.mem := rfl
@[simp] theorem State.advance_awaitingKey (s : State) : (s.advance).awaitingKey = s.awaitingKey := rfl
@[simp] theorem State.advance_outputs (s : State) : (s.advance).outputs = s.outputs := rfl
@[simp] theorem State.advance_draws (s : State) : (s.advance).draws = s.draws := rfl
@[simp] theorem State.advance_events (s : State) : (s.advance).events = s.events := rfl
@[simp] theorem State.advance_freeEvents (s : State) : (s.advance).freeEvents = s.freeEvents := rfl
@[simp] theorem State.advance_requests (s : State) : (s.advance).requests = s.requests := rfl
@[simp] theorem State.advance_started (s : State) : (s.advance).started = s.started := rfl
@[simp] theorem State.advance_reg (s : State) (q : Reg) : (s.advance).reg q = s.reg q := rfl
@[simp] theorem State.advance_keyDown (s : State) (j : Key) : (s.advance).keyDown j = s.keyDown j := rfl

/-! ### State.setDt -/

@[simp] theorem State.setDt_v (s : State) (b : Byte) : (s.setDt b).v = s.v := rfl
@[simp] theorem State.setDt_i (s : State) (b : Byte) : (s.setDt b).i = s.i := rfl
@[simp] theorem State.setDt_pc (s : State) (b : Byte) : (s.setDt b).pc = s.pc := rfl
@[simp] theorem State.setDt_stack (s : State) (b : Byte) : (s.setDt b).stack = s.stack := rfl
@[simp] theorem State.setDt_sp (s : State) (b : Byte) : (s.setDt b).sp = s.sp := rfl
@[simp] theorem State.setDt_fb (s : State) (b : Byte) : (s.setDt b).fb = s.fb := rfl
@[simp] theorem State.setDt_dt (s : State) (b : Byte) : (s.setDt b).dt = b := rfl
@[simp] theorem State.setDt_st (s : State) (b : Byte) : (s.setDt b).st = s.st := rfl
@[simp] theorem State.setDt_key (s : State) (b : Byte) : (s.setDt b).key = s.key := rfl
@[simp] theorem State.setDt_runState (s : State) (b : Byte) : (s.setDt b).runState = s.runState := rfl
@[simp] theorem State.setDt_haltCause (s : State) (b : Byte) : (s.setDt b).haltCause = s.haltCause := rfl
@[simp] theorem State.setDt_mem (s : State) (b : Byte) : (s.setDt b).mem = s.mem := rfl
@[simp] theorem State.setDt_awaitingKey (s : State) (b : Byte) : (s.setDt b).awaitingKey = s.awaitingKey := rfl
@[simp] theorem State.setDt_outputs (s : State) (b : Byte) : (s.setDt b).outputs = s.outputs := rfl
@[simp] theorem State.setDt_draws (s : State) (b : Byte) : (s.setDt b).draws = s.draws := rfl
@[simp] theorem State.setDt_events (s : State) (b : Byte) : (s.setDt b).events = s.events := rfl
@[simp] theorem State.setDt_freeEvents (s : State) (b : Byte) : (s.setDt b).freeEvents = s.freeEvents := rfl
@[simp] theorem State.setDt_requests (s : State) (b : Byte) : (s.setDt b).requests = s.requests := rfl
@[simp] theorem State.setDt_started (s : State) (b : Byte) : (s.setDt b).started = s.started := rfl
@[simp] theorem State.setDt_reg (s : State) (b : Byte) (q : Reg) : (s.setDt b).reg q = s.reg q := rfl
@[simp] theorem State.setDt_keyDown (s : State) (b : Byte) (j : Key) : (s.setDt b).keyDown j = s.keyDown j := rfl

/-! ### State.setSt -/

@[simp] theorem State.setSt_v (s : State) (b : Byte) : (s.setSt b).v = s.v := rfl
@[simp] theorem State.setSt_i (s : State) (b : Byte) : (s.setSt b).i = s.i := rfl
@[simp] theorem State.setSt_pc (s : State) (b : Byte) : (s.setSt b).pc = s.pc := rfl
@[simp] theorem State.setSt_stack (s : State) (b : Byte) : (s.setSt b).stack = s.stack := rfl
@[simp] theorem State.setSt_sp (s : State) (b : Byte) : (s.setSt b).sp = s.sp := rfl
@[simp] theorem State.setSt_fb (s : State) (b : Byte) : (s.setSt b).fb = s.fb := rfl
@[simp] theorem State.setSt_dt (s : State) (b : Byte) : (s.setSt b).dt = s.dt := rfl
@[simp] theorem State.setSt_st (s : State) (b : Byte) : (s.setSt b).st = b := rfl
@[simp] theorem State.setSt_key (s : State) (b : Byte) : (s.setSt b).key = s.key := rfl
@[simp] theorem State.setSt_runState (s : State) (b : Byte) : (s.setSt b).runState = s.runState := rfl
@[simp] theorem State.setSt_haltCause (s : State) (b : Byte) : (s.setSt b).haltCause = s.haltCause := rfl
@[simp] theorem State.setSt_mem (s : State) (b : Byte) : (s.setSt b).mem = s.mem := rfl
@[simp] theorem State.setSt_awaitingKey (s : State) (b : Byte) : (s.setSt b).awaitingKey = s.awaitingKey := rfl
@[simp] theorem State.setSt_outputs (s : State) (b : Byte) : (s.setSt b).outputs = s.outputs := rfl
@[simp] theorem State.setSt_draws (s : State) (b : Byte) : (s.setSt b).draws = s.draws := rfl
@[simp] theorem State.setSt_events (s : State) (b : Byte) : (s.setSt b).events = s.events := rfl
@[simp] theorem State.setSt_freeEvents (s : State) (b : Byte) : (s.setSt b).freeEvents = s.freeEvents := rfl
@[simp] theorem State.setSt_requests (s : State) (b : Byte) : (s.setSt b).requests = s.requests := rfl
@[simp] theorem State.setSt_started (s : State) (b : Byte) : (s.setSt b).started = s.started := rfl
@[simp] theorem State.setSt_reg (s : State) (b : Byte) (q : Reg) : (s.setSt b).reg q = s.reg q := rfl
@[simp] theorem State.setSt_keyDown (s : State) (b : Byte) (j : Key) : (s.setSt b).keyDown j = s.keyDown j := rfl

/-! ### State.setFb -/

@[simp] theorem State.setFb_v (s : State) (fb : Framebuffer) : (s.setFb fb).v = s.v := rfl
@[simp] theorem State.setFb_i (s : State) (fb : Framebuffer) : (s.setFb fb).i = s.i := rfl
@[simp] theorem State.setFb_pc (s : State) (fb : Framebuffer) : (s.setFb fb).pc = s.pc := rfl
@[simp] theorem State.setFb_stack (s : State) (fb : Framebuffer) : (s.setFb fb).stack = s.stack := rfl
@[simp] theorem State.setFb_sp (s : State) (fb : Framebuffer) : (s.setFb fb).sp = s.sp := rfl
@[simp] theorem State.setFb_fb (s : State) (fb : Framebuffer) : (s.setFb fb).fb = fb := rfl
@[simp] theorem State.setFb_dt (s : State) (fb : Framebuffer) : (s.setFb fb).dt = s.dt := rfl
@[simp] theorem State.setFb_st (s : State) (fb : Framebuffer) : (s.setFb fb).st = s.st := rfl
@[simp] theorem State.setFb_key (s : State) (fb : Framebuffer) : (s.setFb fb).key = s.key := rfl
@[simp] theorem State.setFb_runState (s : State) (fb : Framebuffer) : (s.setFb fb).runState = s.runState := rfl
@[simp] theorem State.setFb_haltCause (s : State) (fb : Framebuffer) : (s.setFb fb).haltCause = s.haltCause := rfl
@[simp] theorem State.setFb_mem (s : State) (fb : Framebuffer) : (s.setFb fb).mem = s.mem := rfl
@[simp] theorem State.setFb_awaitingKey (s : State) (fb : Framebuffer) : (s.setFb fb).awaitingKey = s.awaitingKey := rfl
@[simp] theorem State.setFb_outputs (s : State) (fb : Framebuffer) : (s.setFb fb).outputs = s.outputs := rfl
@[simp] theorem State.setFb_draws (s : State) (fb : Framebuffer) : (s.setFb fb).draws = s.draws := rfl
@[simp] theorem State.setFb_events (s : State) (fb : Framebuffer) : (s.setFb fb).events = s.events := rfl
@[simp] theorem State.setFb_freeEvents (s : State) (fb : Framebuffer) : (s.setFb fb).freeEvents = s.freeEvents := rfl
@[simp] theorem State.setFb_requests (s : State) (fb : Framebuffer) : (s.setFb fb).requests = s.requests := rfl
@[simp] theorem State.setFb_started (s : State) (fb : Framebuffer) : (s.setFb fb).started = s.started := rfl
@[simp] theorem State.setFb_reg (s : State) (fb : Framebuffer) (q : Reg) : (s.setFb fb).reg q = s.reg q := rfl
@[simp] theorem State.setFb_keyDown (s : State) (fb : Framebuffer) (j : Key) : (s.setFb fb).keyDown j = s.keyDown j := rfl

/-! ### State.pressKey -/

@[simp] theorem State.pressKey_v (s : State) (k : Key) : (s.pressKey k).v = s.v := rfl
@[simp] theorem State.pressKey_i (s : State) (k : Key) : (s.pressKey k).i = s.i := rfl
@[simp] theorem State.pressKey_pc (s : State) (k : Key) : (s.pressKey k).pc = s.pc := rfl
@[simp] theorem State.pressKey_stack (s : State) (k : Key) : (s.pressKey k).stack = s.stack := rfl
@[simp] theorem State.pressKey_sp (s : State) (k : Key) : (s.pressKey k).sp = s.sp := rfl
@[simp] theorem State.pressKey_fb (s : State) (k : Key) : (s.pressKey k).fb = s.fb := rfl
@[simp] theorem State.pressKey_dt (s : State) (k : Key) : (s.pressKey k).dt = s.dt := rfl
@[simp] theorem State.pressKey_st (s : State) (k : Key) : (s.pressKey k).st = s.st := rfl
@[simp] theorem State.pressKey_key (s : State) (k : Key) : (s.pressKey k).key = (Vector.replicate 16 false).set k.val true k.isLt := rfl
@[simp] theorem State.pressKey_runState (s : State) (k : Key) : (s.pressKey k).runState = s.runState := rfl
@[simp] theorem State.pressKey_haltCause (s : State) (k : Key) : (s.pressKey k).haltCause = s.haltCause := rfl
@[simp] theorem State.pressKey_mem (s : State) (k : Key) : (s.pressKey k).mem = s.mem := rfl
@[simp] theorem State.pressKey_awaitingKey (s : State) (k : Key) : (s.pressKey k).awaitingKey = s.awaitingKey := rfl
@[simp] theorem State.pressKey_outputs (s : State) (k : Key) : (s.pressKey k).outputs = s.outputs := rfl
@[simp] theorem State.pressKey_draws (s : State) (k : Key) : (s.pressKey k).draws = s.draws := rfl
@[simp] theorem State.pressKey_events (s : State) (k : Key) : (s.pressKey k).events = s.events := rfl
@[simp] theorem State.pressKey_freeEvents (s : State) (k : Key) : (s.pressKey k).freeEvents = s.freeEvents := rfl
@[simp] theorem State.pressKey_requests (s : State) (k : Key) : (s.pressKey k).requests = s.requests := rfl
@[simp] theorem State.pressKey_started (s : State) (k : Key) : (s.pressKey k).started = s.started := rfl
@[simp] theorem State.pressKey_reg (s : State) (k : Key) (q : Reg) : (s.pressKey k).reg q = s.reg q := rfl

/-! ### State.releaseKey -/

@[simp] theorem State.releaseKey_v (s : State) (k : Key) : (s.releaseKey k).v = s.v := rfl
@[simp] theorem State.releaseKey_i (s : State) (k : Key) : (s.releaseKey k).i = s.i := rfl
@[simp] theorem State.releaseKey_pc (s : State) (k : Key) : (s.releaseKey k).pc = s.pc := rfl
@[simp] theorem State.releaseKey_stack (s : State) (k : Key) : (s.releaseKey k).stack = s.stack := rfl
@[simp] theorem State.releaseKey_sp (s : State) (k : Key) : (s.releaseKey k).sp = s.sp := rfl
@[simp] theorem State.releaseKey_fb (s : State) (k : Key) : (s.releaseKey k).fb = s.fb := rfl
@[simp] theorem State.releaseKey_dt (s : State) (k : Key) : (s.releaseKey k).dt = s.dt := rfl
@[simp] theorem State.releaseKey_st (s : State) (k : Key) : (s.releaseKey k).st = s.st := rfl
@[simp] theorem State.releaseKey_key (s : State) (k : Key) : (s.releaseKey k).key = s.key.set k.val false k.isLt := rfl
@[simp] theorem State.releaseKey_runState (s : State) (k : Key) : (s.releaseKey k).runState = s.runState := rfl
@[simp] theorem State.releaseKey_haltCause (s : State) (k : Key) : (s.releaseKey k).haltCause = s.haltCause := rfl
@[simp] theorem State.releaseKey_mem (s : State) (k : Key) : (s.releaseKey k).mem = s.mem := rfl
@[simp] theorem State.releaseKey_awaitingKey (s : State) (k : Key) : (s.releaseKey k).awaitingKey = s.awaitingKey := rfl
@[simp] theorem State.releaseKey_outputs (s : State) (k : Key) : (s.releaseKey k).outputs = s.outputs := rfl
@[simp] theorem State.releaseKey_draws (s : State) (k : Key) : (s.releaseKey k).draws = s.draws := rfl
@[simp] theorem State.releaseKey_events (s : State) (k : Key) : (s.releaseKey k).events = s.events := rfl
@[simp] theorem State.releaseKey_freeEvents (s : State) (k : Key) : (s.releaseKey k).freeEvents = s.freeEvents := rfl
@[simp] theorem State.releaseKey_requests (s : State) (k : Key) : (s.releaseKey k).requests = s.requests := rfl
@[simp] theorem State.releaseKey_started (s : State) (k : Key) : (s.releaseKey k).started = s.started := rfl
@[simp] theorem State.releaseKey_reg (s : State) (k : Key) (q : Reg) : (s.releaseKey k).reg q = s.reg q := rfl

/-! ### State.setAwaiting -/

@[simp] theorem State.setAwaiting_awaitingKey (s : State) (b : Bool) : (s.setAwaiting b).awaitingKey = b := rfl
@[simp] theorem State.setAwaiting_v (s : State) (b : Bool) : (s.setAwaiting b).v = s.v := rfl
@[simp] theorem State.setAwaiting_i (s : State) (b : Bool) : (s.setAwaiting b).i = s.i := rfl
@[simp] theorem State.setAwaiting_pc (s : State) (b : Bool) : (s.setAwaiting b).pc = s.pc := rfl
@[simp] theorem State.setAwaiting_stack (s : State) (b : Bool) : (s.setAwaiting b).stack = s.stack := rfl
@[simp] theorem State.setAwaiting_sp (s : State) (b : Bool) : (s.setAwaiting b).sp = s.sp := rfl
@[simp] theorem State.setAwaiting_fb (s : State) (b : Bool) : (s.setAwaiting b).fb = s.fb := rfl
@[simp] theorem State.setAwaiting_dt (s : State) (b : Bool) : (s.setAwaiting b).dt = s.dt := rfl
@[simp] theorem State.setAwaiting_st (s : State) (b : Bool) : (s.setAwaiting b).st = s.st := rfl
@[simp] theorem State.setAwaiting_key (s : State) (b : Bool) : (s.setAwaiting b).key = s.key := rfl
@[simp] theorem State.setAwaiting_runState (s : State) (b : Bool) : (s.setAwaiting b).runState = s.runState := rfl
@[simp] theorem State.setAwaiting_haltCause (s : State) (b : Bool) : (s.setAwaiting b).haltCause = s.haltCause := rfl
@[simp] theorem State.setAwaiting_mem (s : State) (b : Bool) : (s.setAwaiting b).mem = s.mem := rfl
@[simp] theorem State.setAwaiting_outputs (s : State) (b : Bool) : (s.setAwaiting b).outputs = s.outputs := rfl
@[simp] theorem State.setAwaiting_draws (s : State) (b : Bool) : (s.setAwaiting b).draws = s.draws := rfl
@[simp] theorem State.setAwaiting_events (s : State) (b : Bool) : (s.setAwaiting b).events = s.events := rfl
@[simp] theorem State.setAwaiting_freeEvents (s : State) (b : Bool) : (s.setAwaiting b).freeEvents = s.freeEvents := rfl
@[simp] theorem State.setAwaiting_requests (s : State) (b : Bool) : (s.setAwaiting b).requests = s.requests := rfl
@[simp] theorem State.setAwaiting_started (s : State) (b : Bool) : (s.setAwaiting b).started = s.started := rfl
@[simp] theorem State.setAwaiting_reg (s : State) (b : Bool) (q : Reg) : (s.setAwaiting b).reg q = s.reg q := rfl
@[simp] theorem State.setAwaiting_keyDown (s : State) (b : Bool) (j : Key) : (s.setAwaiting b).keyDown j = s.keyDown j := rfl

/-! ### State.nextEvent -/

/-- `NextEvent()` changes only the model's two event fields: it answers the oldest listed event, or a free one. -/
theorem State.nextEvent_cases (s : State) :
    (∃ e es, s.events = e :: es ∧ s.nextEvent = (e, { s with events := es })) ∨
    (s.events = [] ∧
      s.nextEvent = (Config.hostEvent s.freeEvents, { s with freeEvents := s.freeEvents + 1 })) := by
  unfold State.nextEvent
  cases h : s.events with
  | nil => exact .inr ⟨rfl, rfl⟩
  | cons e es => exact .inl ⟨e, es, rfl, rfl⟩

@[simp] theorem State.nextEvent_v (s : State) : s.nextEvent.2.v = s.v := by
  unfold State.nextEvent; split <;> rfl

@[simp] theorem State.nextEvent_i (s : State) : s.nextEvent.2.i = s.i := by
  unfold State.nextEvent; split <;> rfl

@[simp] theorem State.nextEvent_pc (s : State) : s.nextEvent.2.pc = s.pc := by
  unfold State.nextEvent; split <;> rfl

@[simp] theorem State.nextEvent_stack (s : State) : s.nextEvent.2.stack = s.stack := by
  unfold State.nextEvent; split <;> rfl

@[simp] theorem State.nextEvent_sp (s : State) : s.nextEvent.2.sp = s.sp := by
  unfold State.nextEvent; split <;> rfl

@[simp] theorem State.nextEvent_fb (s : State) : s.nextEvent.2.fb = s.fb := by
  unfold State.nextEvent; split <;> rfl

@[simp] theorem State.nextEvent_dt (s : State) : s.nextEvent.2.dt = s.dt := by
  unfold State.nextEvent; split <;> rfl

@[simp] theorem State.nextEvent_st (s : State) : s.nextEvent.2.st = s.st := by
  unfold State.nextEvent; split <;> rfl

@[simp] theorem State.nextEvent_key (s : State) : s.nextEvent.2.key = s.key := by
  unfold State.nextEvent; split <;> rfl

@[simp] theorem State.nextEvent_runState (s : State) : s.nextEvent.2.runState = s.runState := by
  unfold State.nextEvent; split <;> rfl

@[simp] theorem State.nextEvent_haltCause (s : State) : s.nextEvent.2.haltCause = s.haltCause := by
  unfold State.nextEvent; split <;> rfl

@[simp] theorem State.nextEvent_mem (s : State) : s.nextEvent.2.mem = s.mem := by
  unfold State.nextEvent; split <;> rfl

@[simp] theorem State.nextEvent_awaitingKey (s : State) : s.nextEvent.2.awaitingKey = s.awaitingKey := by
  unfold State.nextEvent; split <;> rfl

@[simp] theorem State.nextEvent_outputs (s : State) : s.nextEvent.2.outputs = s.outputs := by
  unfold State.nextEvent; split <;> rfl

@[simp] theorem State.nextEvent_draws (s : State) : s.nextEvent.2.draws = s.draws := by
  unfold State.nextEvent; split <;> rfl

@[simp] theorem State.nextEvent_requests (s : State) : s.nextEvent.2.requests = s.requests := by
  unfold State.nextEvent; split <;> rfl

@[simp] theorem State.nextEvent_started (s : State) : s.nextEvent.2.started = s.started := by
  unfold State.nextEvent; split <;> rfl

@[simp] theorem State.nextEvent_reg (s : State) (q : Reg) : s.nextEvent.2.reg q = s.reg q := by simp [State.reg]

@[simp] theorem State.nextEvent_keyDown (s : State) (j : Key) : s.nextEvent.2.keyDown j = s.keyDown j := by
  simp [State.keyDown]

/-! ### State.emit -/

@[simp] theorem State.emit_v (s : State) (o : Output) : (s.emit o).v = s.v := rfl
@[simp] theorem State.emit_i (s : State) (o : Output) : (s.emit o).i = s.i := rfl
@[simp] theorem State.emit_pc (s : State) (o : Output) : (s.emit o).pc = s.pc := rfl
@[simp] theorem State.emit_stack (s : State) (o : Output) : (s.emit o).stack = s.stack := rfl
@[simp] theorem State.emit_sp (s : State) (o : Output) : (s.emit o).sp = s.sp := rfl
@[simp] theorem State.emit_fb (s : State) (o : Output) : (s.emit o).fb = s.fb := rfl
@[simp] theorem State.emit_dt (s : State) (o : Output) : (s.emit o).dt = s.dt := rfl
@[simp] theorem State.emit_st (s : State) (o : Output) : (s.emit o).st = s.st := rfl
@[simp] theorem State.emit_key (s : State) (o : Output) : (s.emit o).key = s.key := rfl
@[simp] theorem State.emit_runState (s : State) (o : Output) : (s.emit o).runState = s.runState := rfl
@[simp] theorem State.emit_haltCause (s : State) (o : Output) : (s.emit o).haltCause = s.haltCause := rfl
@[simp] theorem State.emit_mem (s : State) (o : Output) : (s.emit o).mem = s.mem := rfl
@[simp] theorem State.emit_awaitingKey (s : State) (o : Output) : (s.emit o).awaitingKey = s.awaitingKey := rfl
@[simp] theorem State.emit_outputs (s : State) (o : Output) : (s.emit o).outputs = s.outputs ++ [o] := rfl
@[simp] theorem State.emit_draws (s : State) (o : Output) : (s.emit o).draws = s.draws := rfl
@[simp] theorem State.emit_events (s : State) (o : Output) : (s.emit o).events = s.events := rfl
@[simp] theorem State.emit_freeEvents (s : State) (o : Output) : (s.emit o).freeEvents = s.freeEvents := rfl
@[simp] theorem State.emit_requests (s : State) (o : Output) : (s.emit o).requests = s.requests := rfl
@[simp] theorem State.emit_started (s : State) (o : Output) : (s.emit o).started = s.started := rfl
@[simp] theorem State.emit_reg (s : State) (o : Output) (q : Reg) : (s.emit o).reg q = s.reg q := rfl
@[simp] theorem State.emit_keyDown (s : State) (o : Output) (j : Key) : (s.emit o).keyDown j = s.keyDown j := rfl

/-! ### State.haltWith -/

@[simp] theorem State.haltWith_v (s : State) (c : HaltCause) : (s.haltWith c).v = s.v := rfl
@[simp] theorem State.haltWith_i (s : State) (c : HaltCause) : (s.haltWith c).i = s.i := rfl
@[simp] theorem State.haltWith_pc (s : State) (c : HaltCause) : (s.haltWith c).pc = s.pc := rfl
@[simp] theorem State.haltWith_stack (s : State) (c : HaltCause) : (s.haltWith c).stack = s.stack := rfl
@[simp] theorem State.haltWith_sp (s : State) (c : HaltCause) : (s.haltWith c).sp = s.sp := rfl
@[simp] theorem State.haltWith_fb (s : State) (c : HaltCause) : (s.haltWith c).fb = s.fb := rfl
@[simp] theorem State.haltWith_dt (s : State) (c : HaltCause) : (s.haltWith c).dt = s.dt := rfl
@[simp] theorem State.haltWith_st (s : State) (c : HaltCause) : (s.haltWith c).st = s.st := rfl
@[simp] theorem State.haltWith_key (s : State) (c : HaltCause) : (s.haltWith c).key = s.key := rfl
@[simp] theorem State.haltWith_runState (s : State) (c : HaltCause) : (s.haltWith c).runState = .halt := rfl
@[simp] theorem State.haltWith_haltCause (s : State) (c : HaltCause) : (s.haltWith c).haltCause = c := rfl
@[simp] theorem State.haltWith_mem (s : State) (c : HaltCause) : (s.haltWith c).mem = s.mem := rfl
@[simp] theorem State.haltWith_awaitingKey (s : State) (c : HaltCause) : (s.haltWith c).awaitingKey = s.awaitingKey := rfl
@[simp] theorem State.haltWith_outputs (s : State) (c : HaltCause) : (s.haltWith c).outputs = s.outputs ++ [.report c] := rfl
@[simp] theorem State.haltWith_draws (s : State) (c : HaltCause) : (s.haltWith c).draws = s.draws := rfl
@[simp] theorem State.haltWith_events (s : State) (c : HaltCause) : (s.haltWith c).events = s.events := rfl
@[simp] theorem State.haltWith_freeEvents (s : State) (c : HaltCause) : (s.haltWith c).freeEvents = s.freeEvents := rfl
@[simp] theorem State.haltWith_requests (s : State) (c : HaltCause) : (s.haltWith c).requests = s.requests := rfl
@[simp] theorem State.haltWith_started (s : State) (c : HaltCause) : (s.haltWith c).started = s.started := rfl
@[simp] theorem State.haltWith_reg (s : State) (c : HaltCause) (q : Reg) : (s.haltWith c).reg q = s.reg q := rfl
@[simp] theorem State.haltWith_keyDown (s : State) (c : HaltCause) (j : Key) : (s.haltWith c).keyDown j = s.keyDown j := rfl

/-! ### noteUpdate -/

@[simp] theorem noteUpdate_v (s : State) : (noteUpdate s).v = s.v := rfl
@[simp] theorem noteUpdate_i (s : State) : (noteUpdate s).i = s.i := rfl
@[simp] theorem noteUpdate_pc (s : State) : (noteUpdate s).pc = s.pc := rfl
@[simp] theorem noteUpdate_stack (s : State) : (noteUpdate s).stack = s.stack := rfl
@[simp] theorem noteUpdate_sp (s : State) : (noteUpdate s).sp = s.sp := rfl
@[simp] theorem noteUpdate_fb (s : State) : (noteUpdate s).fb = s.fb := rfl
@[simp] theorem noteUpdate_dt (s : State) : (noteUpdate s).dt = s.dt := rfl
@[simp] theorem noteUpdate_st (s : State) : (noteUpdate s).st = s.st := rfl
@[simp] theorem noteUpdate_key (s : State) : (noteUpdate s).key = s.key := rfl
@[simp] theorem noteUpdate_runState (s : State) : (noteUpdate s).runState = s.runState := rfl
@[simp] theorem noteUpdate_haltCause (s : State) : (noteUpdate s).haltCause = s.haltCause := rfl
@[simp] theorem noteUpdate_mem (s : State) : (noteUpdate s).mem = s.mem := rfl
@[simp] theorem noteUpdate_awaitingKey (s : State) : (noteUpdate s).awaitingKey = s.awaitingKey := rfl
@[simp] theorem noteUpdate_outputs (s : State) : (noteUpdate s).outputs = s.outputs := rfl
@[simp] theorem noteUpdate_draws (s : State) : (noteUpdate s).draws = s.draws := rfl
@[simp] theorem noteUpdate_events (s : State) : (noteUpdate s).events = s.events := rfl
@[simp] theorem noteUpdate_freeEvents (s : State) : (noteUpdate s).freeEvents = s.freeEvents := rfl
@[simp] theorem noteUpdate_requests (s : State) : (noteUpdate s).requests = s.requests := rfl
@[simp] theorem noteUpdate_started (s : State) : (noteUpdate s).started = true := rfl
@[simp] theorem noteUpdate_reg (s : State) (q : Reg) : (noteUpdate s).reg q = s.reg q := rfl
@[simp] theorem noteUpdate_keyDown (s : State) (j : Key) : (noteUpdate s).keyDown j = s.keyDown j := rfl

/-! ### tickTimers -/

@[simp] theorem tickTimers_v (s : State) : (tickTimers s).v = s.v := rfl
@[simp] theorem tickTimers_i (s : State) : (tickTimers s).i = s.i := rfl
@[simp] theorem tickTimers_pc (s : State) : (tickTimers s).pc = s.pc := rfl
@[simp] theorem tickTimers_stack (s : State) : (tickTimers s).stack = s.stack := rfl
@[simp] theorem tickTimers_sp (s : State) : (tickTimers s).sp = s.sp := rfl
@[simp] theorem tickTimers_fb (s : State) : (tickTimers s).fb = s.fb := rfl
@[simp] theorem tickTimers_dt (s : State) : (tickTimers s).dt = s.dt - 1#8 := rfl
@[simp] theorem tickTimers_st (s : State) : (tickTimers s).st = s.st - 1#8 := rfl
@[simp] theorem tickTimers_key (s : State) : (tickTimers s).key = s.key := rfl
@[simp] theorem tickTimers_runState (s : State) : (tickTimers s).runState = s.runState := rfl
@[simp] theorem tickTimers_haltCause (s : State) : (tickTimers s).haltCause = s.haltCause := rfl
@[simp] theorem tickTimers_mem (s : State) : (tickTimers s).mem = s.mem := rfl
@[simp] theorem tickTimers_awaitingKey (s : State) : (tickTimers s).awaitingKey = s.awaitingKey := rfl
@[simp] theorem tickTimers_outputs (s : State) : (tickTimers s).outputs = s.outputs := rfl
@[simp] theorem tickTimers_draws (s : State) : (tickTimers s).draws = s.draws := rfl
@[simp] theorem tickTimers_events (s : State) : (tickTimers s).events = s.events := rfl
@[simp] theorem tickTimers_freeEvents (s : State) : (tickTimers s).freeEvents = s.freeEvents := rfl
@[simp] theorem tickTimers_requests (s : State) : (tickTimers s).requests = s.requests := rfl
@[simp] theorem tickTimers_started (s : State) : (tickTimers s).started = s.started := rfl
@[simp] theorem tickTimers_reg (s : State) (q : Reg) : (tickTimers s).reg q = s.reg q := rfl
@[simp] theorem tickTimers_keyDown (s : State) (j : Key) : (tickTimers s).keyDown j = s.keyDown j := rfl

/-! ### State.setResultFlag -/

@[simp] theorem State.setResultFlag_i (s : State) (x : Reg) (r : Byte) (f : Bool) : (s.setResultFlag x r f).i = s.i := rfl
@[simp] theorem State.setResultFlag_pc (s : State) (x : Reg) (r : Byte) (f : Bool) : (s.setResultFlag x r f).pc = s.pc := rfl
@[simp] theorem State.setResultFlag_stack (s : State) (x : Reg) (r : Byte) (f : Bool) : (s.setResultFlag x r f).stack = s.stack := rfl
@[simp] theorem State.setResultFlag_sp (s : State) (x : Reg) (r : Byte) (f : Bool) : (s.setResultFlag x r f).sp = s.sp := rfl
@[simp] theorem State.setResultFlag_fb (s : State) (x : Reg) (r : Byte) (f : Bool) : (s.setResultFlag x r f).fb = s.fb := rfl
@[simp] theorem State.setResultFlag_dt (s : State) (x : Reg) (r : Byte) (f : Bool) : (s.setResultFlag x r f).dt = s.dt := rfl
@[simp] theorem State.setResultFlag_st (s : State) (x : Reg) (r : Byte) (f : Bool) : (s.setResultFlag x r f).st = s.st := rfl
@[simp] theorem State.setResultFlag_key (s : State) (x : Reg) (r : Byte) (f : Bool) : (s.setResultFlag x r f).key = s.key := rfl
@[simp] theorem State.setResultFlag_runState (s : State) (x : Reg) (r : Byte) (f : Bool) : (s.setResultFlag x r f).runState = s.runState := rfl
@[simp] theorem State.setResultFlag_haltCause (s : State) (x : Reg) (r : Byte) (f : Bool) : (s.setResultFlag x r f).haltCause = s.haltCause := rfl
@[simp] theorem State.setResultFlag_mem (s : State) (x : Reg) (r : Byte) (f : Bool) : (s.setResultFlag x r f).mem = s.mem := rfl
@[simp] theorem State.setResultFlag_awaitingKey (s : State) (x : Reg) (r : Byte) (f : Bool) : (s.setResultFlag x r f).awaitingKey = s.awaitingKey := rfl
@[simp] theorem State.setResultFlag_outputs (s : State) (x : Reg) (r : Byte) (f : Bool) : (s.setResultFlag x r f).outputs = s.outputs := rfl
@[simp] theorem State.setResultFlag_draws (s : State) (x : Reg) (r : Byte) (f : Bool) : (s.setResultFlag x r f).draws = s.draws := rfl
@[simp] theorem State.setResultFlag_events (s : State) (x : Reg) (r : Byte) (f : Bool) : (s.setResultFlag x r f).events = s.events := rfl
@[simp] theorem State.setResultFlag_freeEvents (s : State) (x : Reg) (r : Byte) (f : Bool) : (s.setResultFlag x r f).freeEvents = s.freeEvents := rfl
@[simp] theorem State.setResultFlag_requests (s : State) (x : Reg) (r : Byte) (f : Bool) : (s.setResultFlag x r f).requests = s.requests := rfl
@[simp] theorem State.setResultFlag_started (s : State) (x : Reg) (r : Byte) (f : Bool) : (s.setResultFlag x r f).started = s.started := rfl
@[simp] theorem State.setResultFlag_keyDown (s : State) (x : Reg) (r : Byte) (f : Bool) (j : Key) : (s.setResultFlag x r f).keyDown j = s.keyDown j := rfl

/-! ### Registers and keys read back -/

/-- Reading a register after a write: the value at the written one, the old value elsewhere. -/
theorem State.setReg_reg (s : State) (r q : Reg) (b : Byte) :
    (s.setReg r b).reg q = if q = r then b else s.reg q := by
  simp only [State.reg, State.setReg, Vector.get_eq_getElem, Vector.getElem_set]
  by_cases h : q = r
  · simp [h]
  · rw [if_neg h, if_neg (fun e => h (Fin.ext e.symm))]

@[simp] theorem State.setReg_reg_self (s : State) (r : Reg) (b : Byte) : (s.setReg r b).reg r = b := by
  simp [State.setReg_reg]

/-- After `SetKey(k)` exactly key `k` is pressed. -/
@[simp] theorem State.pressKey_keyDown (s : State) (k j : Key) : (s.pressKey k).keyDown j = decide (j = k) := by
  simp only [State.keyDown, State.pressKey, Vector.get_eq_getElem, Vector.getElem_set]
  by_cases h : j = k
  · simp [h]
  · rw [if_neg (fun e => h (Fin.ext e.symm))]; simp [h]

/-- After a key is released it is not pressed, and the others are as before. -/
@[simp] theorem State.releaseKey_keyDown (s : State) (k j : Key) :
    (s.releaseKey k).keyDown j = (decide (j ≠ k) && s.keyDown j) := by
  simp only [State.keyDown, State.releaseKey, Vector.get_eq_getElem, Vector.getElem_set]
  by_cases h : j = k
  · simp [h]
  · rw [if_neg (fun e => h (Fin.ext e.symm))]; simp [h]

/-! ### Skips -/

theorem State.skipIf_eq (s : State) (c : Bool) :
    s.skipIf c = s.setPc (if c then s.pc + 4#16 else s.pc + 2#16) := by
  cases c <;> rfl

/-! ### Result and flag -/

/-- Result and flag read back: VF holds the flag, whatever `x` is (43_alu.md R69). -/
theorem State.setResultFlag_reg (s : State) (x q : Reg) (r : Byte) (f : Bool) :
    (s.setResultFlag x r f).reg q = if q = vf then flagByte f else if q = x then r else s.reg q := by
  simp [State.setResultFlag, State.setReg_reg]

end Sys2Proof.Machine
end

