-- ==== Sys2Proof/Laws/Cycle.lean ====
section
/-! SUPPORT. What the parts of a step can answer, said once: the fetch, the cycle, its timer step, each transaction of the
host, and whose turn it is (30_encoding.md R38, 60_exceptions.md R113, 00_scope.md R7). -/

namespace Sys2Proof.Machine

/-! ## The timer step of a cycle -/

/-- The timer step decrements both timers or does nothing. -/
theorem endCycle_cases (s : State) :
    (reachesTimers s = true ∧ endCycle s = tickTimers s) ∨ (reachesTimers s = false ∧ endCycle s = s) := by
  unfold endCycle
  cases reachesTimers s <;> simp

@[simp] theorem endCycle_v (s : State) : (endCycle s).v = s.v := by
  unfold endCycle; split <;> rfl

@[simp] theorem endCycle_i (s : State) : (endCycle s).i = s.i := by
  unfold endCycle; split <;> rfl

@[simp] theorem endCycle_pc (s : State) : (endCycle s).pc = s.pc := by
  unfold endCycle; split <;> rfl

@[simp] theorem endCycle_stack (s : State) : (endCycle s).stack = s.stack := by
  unfold endCycle; split <;> rfl

@[simp] theorem endCycle_sp (s : State) : (endCycle s).sp = s.sp := by
  unfold endCycle; split <;> rfl

@[simp] theorem endCycle_fb (s : State) : (endCycle s).fb = s.fb := by
  unfold endCycle; split <;> rfl

@[simp] theorem endCycle_key (s : State) : (endCycle s).key = s.key := by
  unfold endCycle; split <;> rfl

@[simp] theorem endCycle_runState (s : State) : (endCycle s).runState = s.runState := by
  unfold endCycle; split <;> rfl

@[simp] theorem endCycle_haltCause (s : State) : (endCycle s).haltCause = s.haltCause := by
  unfold endCycle; split <;> rfl

@[simp] theorem endCycle_mem (s : State) : (endCycle s).mem = s.mem := by
  unfold endCycle; split <;> rfl

@[simp] theorem endCycle_awaitingKey (s : State) : (endCycle s).awaitingKey = s.awaitingKey := by
  unfold endCycle; split <;> rfl

@[simp] theorem endCycle_outputs (s : State) : (endCycle s).outputs = s.outputs := by
  unfold endCycle; split <;> rfl

@[simp] theorem endCycle_draws (s : State) : (endCycle s).draws = s.draws := by
  unfold endCycle; split <;> rfl

@[simp] theorem endCycle_events (s : State) : (endCycle s).events = s.events := by
  unfold endCycle; split <;> rfl

@[simp] theorem endCycle_freeEvents (s : State) : (endCycle s).freeEvents = s.freeEvents := by
  unfold endCycle; split <;> rfl

@[simp] theorem endCycle_requests (s : State) : (endCycle s).requests = s.requests := by
  unfold endCycle; split <;> rfl

@[simp] theorem endCycle_started (s : State) : (endCycle s).started = s.started := by
  unfold endCycle; split <;> rfl

@[simp] theorem endCycle_reg (s : State) (q : Reg) : (endCycle s).reg q = s.reg q := by
  simp [State.reg]

@[simp] theorem endCycle_keyDown (s : State) (j : Key) : (endCycle s).keyDown j = s.keyDown j := by
  simp [State.keyDown]

/-! ## The cycle -/

/-- A cycle at an address whose two bytes exist executes the word they make. -/
theorem cycle_fetched (s : State) (h : s.pc.toNat + 2 ≤ Config.memSize) :
    cycle s = afterExecute
      (exec (decode (wordOfBytes (s.mem.read s.pc.toNat) (s.mem.read (s.pc.toNat + 1)))) (noteUpdate s)) := by
  rcases (noteUpdate s).memReadWord_cases s.pc.toNat with ⟨-, e⟩ | ⟨h', -⟩
  · simp only [cycle, fetch, noteUpdate_pc, e]; rfl
  · omega

/-- A cycle at an address whose two bytes do not both exist raises MemoryOutOfRange. -/
theorem cycle_unfetched (s : State) (h : Config.memSize < s.pc.toNat + 2) :
    cycle s = (noteUpdate s).raise (.memoryOutOfRange (max s.pc.toNat Config.memSize)) := by
  rcases (noteUpdate s).memReadWord_cases s.pc.toNat with ⟨h', -⟩ | ⟨-, e⟩
  · omega
  · simp only [cycle, fetch, noteUpdate_pc, e]
    congr 2
    split <;> omega

/-- What goes on after execute went on before the timer step. -/
theorem afterExecute_next {r : Result} {t : State} (h : afterExecute r = .next t) :
    ∃ u, r = .next u ∧ t = endCycle u := by
  cases r with
  | next u => exact ⟨u, rfl, by simpa [afterExecute] using h.symm⟩
  | fault f => simp [afterExecute] at h
  | refused f => simp [afterExecute] at h

/-- All a cycle that goes on can be: execute and the timer step, or the fetch's fault. -/
theorem cycle_next {s t : State} (h : cycle s = .next t) :
    (s.pc.toNat + 2 ≤ Config.memSize ∧ ∃ u,
      exec (decode (wordOfBytes (s.mem.read s.pc.toNat) (s.mem.read (s.pc.toNat + 1)))) (noteUpdate s) = .next u ∧
      t = endCycle u) ∨
    (Config.memSize < s.pc.toNat + 2 ∧
      t = (noteUpdate s).haltWith (.runtime (.memoryOutOfRange (max s.pc.toNat Config.memSize)))) := by
  by_cases hp : s.pc.toNat + 2 ≤ Config.memSize
  · rw [cycle_fetched s hp] at h
    exact .inl ⟨hp, afterExecute_next h⟩
  · rw [cycle_unfetched s (by omega)] at h
    exact .inr ⟨by omega, by cases h; rfl⟩

/-! ## The host's transactions, when they go on -/

/-- `update` performs a cycle in EXEC, only ends the time for `load` in PAUSE, and does nothing in HALT. -/
theorem update_next {s t : State} (h : update s = .next t) :
    (s.runState = .exec ∧ cycle s = .next t) ∨ (s.runState = .pause ∧ t = noteUpdate s) ∨
    (s.runState = .halt ∧ t = s) := by
  unfold update at h
  split at h
  · exact .inl ⟨‹_›, h⟩
  · exact .inr (.inl ⟨‹_›, by cases h; rfl⟩)
  · exact .inr (.inr ⟨‹_›, by cases h; rfl⟩)

/-- `load` copies its bytes, or in HALT does nothing. -/
theorem hostLoad_next {bytes : List Byte} {offset : Nat} {s t : State} (h : hostLoad bytes offset s = .next t) :
    t = s ∨ (s.runState ≠ .halt ∧ s.started = false ∧ offset + bytes.length ≤ Config.memSize ∧
      t = { s with mem := s.mem.writeList offset bytes }) := by
  unfold hostLoad at h
  split at h
  · cases h; exact .inl rfl
  · split at h
    · cases h
    · split at h
      · cases h
        exact .inr ⟨‹_›, by simp_all, ‹_›, rfl⟩
      · cases h

/-- `set_key` latches its key, or in HALT does nothing. -/
theorem hostSetKey_next {n : Nat} {s t : State} (h : hostSetKey n s = .next t) :
    t = s ∨ (s.runState ≠ .halt ∧ ∃ hn : n < 16, t = s.pressKey ⟨n, hn⟩) := by
  unfold hostSetKey at h
  split at h
  · cases h; exact .inl rfl
  · split at h
    · cases h; exact .inr ⟨‹_›, ‹_›, rfl⟩
    · cases h

/-- `quit` halts with cause Quit, or in HALT does nothing. -/
theorem hostQuit_next {s t : State} (h : hostQuit s = .next t) :
    t = s ∨ (s.runState ≠ .halt ∧ t = s.haltWith .quit) := by
  unfold hostQuit at h
  split at h
  · cases h; exact .inl rfl
  · cases h; exact .inr ⟨‹_›, rfl⟩

/-- `pause` goes from EXEC to PAUSE, or does nothing. -/
theorem hostPause_next {s t : State} (h : hostPause s = .next t) :
    t = s ∨ (s.runState = .exec ∧ t = { s with runState := .pause }) := by
  unfold hostPause at h
  split at h
  · cases h; exact .inr ⟨‹_›, rfl⟩
  · cases h; exact .inl rfl

/-- `resume` goes from PAUSE to EXEC, or does nothing. -/
theorem hostResume_next {s t : State} (h : hostResume s = .next t) :
    t = s ∨ (s.runState = .pause ∧ t = { s with runState := .exec }) := by
  unfold hostResume at h
  split at h
  · cases h; exact .inr ⟨‹_›, rfl⟩
  · cases h; exact .inl rfl

/-! ## The step -/

/-- No wait is under way outside EXEC. -/
theorem midWait_eq_true {s : State} : midWait s = true ↔ s.runState = .exec ∧ s.awaitingKey = true := by
  simp [midWait]

/-- In EXEC a wait that is under way, or an empty list of host transactions, makes the step a cycle. -/
theorem step_cycle (s : State) (h : s.runState = .exec) (hq : s.requests = [] ∨ s.awaitingKey = true) :
    step s = cycle s := by
  unfold step turn
  split
  · rfl
  · rename_i hm
    rcases hq with hq | hq
    · simp [hq, update, h]
    · exact absurd (midWait_eq_true.2 ⟨h, hq⟩) hm

/-- With no wait under way the step performs the host's oldest transaction. -/
theorem step_perform (s : State) {r : HostRequest} {rest : List HostRequest} (hm : midWait s = false)
    (hq : s.requests = r :: rest) : step s = perform r { s with requests := rest } := by
  simp [step, turn, hm, hq]

/-- All a step can be: a cycle that goes on, or a transaction of the host, or an `update` the host calls of itself. -/
theorem step_cases (s : State) :
    (s.runState = .exec ∧ s.awaitingKey = true ∧ step s = cycle s) ∨
    (midWait s = false ∧ ∃ r rest, s.requests = r :: rest ∧ step s = perform r { s with requests := rest }) ∨
    (midWait s = false ∧ s.requests = [] ∧ step s = update s) := by
  cases hm : midWait s with
  | true =>
    obtain ⟨he, ha⟩ := midWait_eq_true.1 hm
    exact .inl ⟨he, ha, step_cycle s he (.inr ha)⟩
  | false =>
    cases hq : s.requests with
    | cons r rest => exact .inr (.inl ⟨rfl, r, rest, rfl, step_perform s hm hq⟩)
    | nil => exact .inr (.inr ⟨rfl, rfl, by simp [step, turn, hm, hq]⟩)

end Sys2Proof.Machine
end

