-- ==== Sys2Proof/Laws/Encoding.lean ====
section
/-! SUPPORT. What the field extractions give on the words the encoder builds, and on words rebuilt from their fields
(30_encoding.md R39). Each fact goes through the natural number of the word. -/

namespace Sys2Proof

theorem toNat_append_fields {m n : Nat} (a : BitVec m) (b : BitVec n) :
    (a ++ b).toNat = a.toNat * 2 ^ n + b.toNat := by
  rw [BitVec.toNat_append, Nat.shiftLeft_eq, Nat.mul_comm, Nat.two_pow_add_eq_or_of_lt b.isLt]

theorem wordNNN_toNat (c : Nibble) (nnn : Addr) : (wordNNN c nnn).toNat = c.toNat * 4096 + nnn.toNat :=
  toNat_append_fields c nnn

theorem wordXNN_toNat (c : Nibble) (x : Reg) (nn : Byte) :
    (wordXNN c x nn).toNat = (c.toNat * 16 + x.val) * 256 + nn.toNat :=
  (toNat_append_fields (c ++ regBits x) nn).trans (by rw [toNat_append_fields]; rfl)

theorem wordXYN_toNat (c : Nibble) (x y : Reg) (n : Nibble) :
    (wordXYN c x y n).toNat = ((c.toNat * 16 + x.val) * 16 + y.val) * 16 + n.toNat :=
  (toNat_append_fields (c ++ regBits x ++ regBits y) n).trans (by rw [toNat_append_fields, toNat_append_fields]; rfl)

theorem classOf_toNat (w : Word) : (classOf w).toNat = w.toNat / 4096 % 16 := by
  simp [classOf, Nat.shiftRight_eq_div_pow]

theorem xOf_val (w : Word) : (xOf w).val = w.toNat / 256 % 16 := by
  show (w.extractLsb' 8 4).toNat = _
  simp [Nat.shiftRight_eq_div_pow]

theorem yOf_val (w : Word) : (yOf w).val = w.toNat / 16 % 16 := by
  show (w.extractLsb' 4 4).toNat = _
  simp [Nat.shiftRight_eq_div_pow]

theorem nOf_toNat (w : Word) : (nOf w).toNat = w.toNat % 16 := by simp [nOf]

theorem nnOf_toNat (w : Word) : (nnOf w).toNat = w.toNat % 256 := by simp [nnOf]

theorem nnnOf_toNat (w : Word) : (nnnOf w).toNat = w.toNat % 4096 := by simp [nnnOf]

@[simp] theorem classOf_wordNNN (c : Nibble) (nnn : Addr) : classOf (wordNNN c nnn) = c := by
  apply BitVec.eq_of_toNat_eq; rw [classOf_toNat, wordNNN_toNat]; omega

@[simp] theorem nnnOf_wordNNN (c : Nibble) (nnn : Addr) : nnnOf (wordNNN c nnn) = nnn := by
  apply BitVec.eq_of_toNat_eq; rw [nnnOf_toNat, wordNNN_toNat]; omega

@[simp] theorem classOf_wordXNN (c : Nibble) (x : Reg) (nn : Byte) : classOf (wordXNN c x nn) = c := by
  apply BitVec.eq_of_toNat_eq; rw [classOf_toNat, wordXNN_toNat]; omega

@[simp] theorem xOf_wordXNN (c : Nibble) (x : Reg) (nn : Byte) : xOf (wordXNN c x nn) = x := by
  apply Fin.ext; rw [xOf_val, wordXNN_toNat]; omega

@[simp] theorem nnOf_wordXNN (c : Nibble) (x : Reg) (nn : Byte) : nnOf (wordXNN c x nn) = nn := by
  apply BitVec.eq_of_toNat_eq; rw [nnOf_toNat, wordXNN_toNat]; omega

@[simp] theorem classOf_wordXYN (c : Nibble) (x y : Reg) (n : Nibble) : classOf (wordXYN c x y n) = c := by
  apply BitVec.eq_of_toNat_eq; rw [classOf_toNat, wordXYN_toNat]; omega

@[simp] theorem xOf_wordXYN (c : Nibble) (x y : Reg) (n : Nibble) : xOf (wordXYN c x y n) = x := by
  apply Fin.ext; rw [xOf_val, wordXYN_toNat]; omega

@[simp] theorem yOf_wordXYN (c : Nibble) (x y : Reg) (n : Nibble) : yOf (wordXYN c x y n) = y := by
  apply Fin.ext; rw [yOf_val, wordXYN_toNat]; omega

@[simp] theorem nOf_wordXYN (c : Nibble) (x y : Reg) (n : Nibble) : nOf (wordXYN c x y n) = n := by
  apply BitVec.eq_of_toNat_eq; rw [nOf_toNat, wordXYN_toNat]; omega

/-- A word is its class and its `NNN`. -/
theorem wordNNN_fields (w : Word) : wordNNN (classOf w) (nnnOf w) = w := by
  apply BitVec.eq_of_toNat_eq; rw [wordNNN_toNat, classOf_toNat, nnnOf_toNat]; omega

/-- A word is its class, `X` and `NN`. -/
theorem wordXNN_fields (w : Word) : wordXNN (classOf w) (xOf w) (nnOf w) = w := by
  apply BitVec.eq_of_toNat_eq; rw [wordXNN_toNat, classOf_toNat, xOf_val, nnOf_toNat]; omega

/-- A word is its class, `X`, `Y` and `N`. -/
theorem wordXYN_fields (w : Word) : wordXYN (classOf w) (xOf w) (yOf w) (nOf w) = w := by
  apply BitVec.eq_of_toNat_eq; rw [wordXYN_toNat, classOf_toNat, xOf_val, yOf_val, nOf_toNat]; omega

/-- The bytes of a word, composed again, are the word (20_memory.md R27). -/
@[simp] theorem wordOfBytes_bytes (w : Word) : wordOfBytes (highByte w) (lowByte w) = w := by
  apply BitVec.eq_of_toNat_eq
  rw [wordOfBytes, toNat_append_fields]
  simp [highByte, lowByte, Nat.shiftRight_eq_div_pow]
  omega

end Sys2Proof
end

