-- ==== Sys2Proof/Laws/Ops.lean ====
section
/-! SUPPORT. For each shared operation, what it can answer, said once: stack, key operand, register ranges, framebuffer
cells, sprite pixels and plotting, the key wait, raising. -/

namespace Sys2Proof.Machine

/-! ## Stack (20_memory.md R36) -/

/-- All a push can answer. -/
theorem State.push_cases (s : State) (w : Word) :
    (∃ h : s.sp.val < 16, s.push w =
      .ok { s with stack := s.stack.set s.sp.val w h, sp := ⟨s.sp.val + 1, by omega⟩ }) ∨
    (s.sp.val = 16 ∧ s.push w = .error .stackOverflow) := by
  unfold State.push
  by_cases h : s.sp.val < 16
  · left; exact ⟨h, by rw [dif_pos h]⟩
  · right; have := s.sp.isLt; exact ⟨by omega, by rw [dif_neg h]⟩

/-- All a pop can answer. -/
theorem State.pop_cases (s : State) :
    (∃ h : 0 < s.sp.val, s.pop = .ok (s.stack[s.sp.val - 1]'(by have := s.sp.isLt; omega),
      { s with sp := ⟨s.sp.val - 1, by have := s.sp.isLt; omega⟩ })) ∨
    (s.sp.val = 0 ∧ s.pop = .error .stackUnderflow) := by
  unfold State.pop
  by_cases h : 0 < s.sp.val
  · left; exact ⟨h, by rw [dif_pos h]⟩
  · right; exact ⟨by omega, by rw [dif_neg h]⟩

/-! ## Key operand (45_keys.md R84) -/

/-- All the key operand can answer. -/
theorem keyOperand_cases (s : State) (x : Reg) :
    (∃ h : (s.reg x).toNat < 16, keyOperand s x = .ok ⟨(s.reg x).toNat, h⟩) ∨
    (15 < (s.reg x).toNat ∧ keyOperand s x = .error (.keyIndexOutOfRange (s.reg x).toNat)) := by
  unfold keyOperand
  by_cases h : (s.reg x).toNat < 16
  · left; exact ⟨h, by rw [dif_pos h]⟩
  · right; exact ⟨by omega, by rw [dif_neg h]⟩

/-! ## Register ranges (47_index_memory.md R97, R98) -/

/-- STM moves `X + 1` bytes. -/
@[simp] theorem length_regsUpTo (s : State) (x : Reg) : (regsUpTo s x).length = x.val + 1 := by
  simp [regsUpTo]

/-- The k-th byte STM moves is `V[k]`. -/
theorem getElem_regsUpTo (s : State) (x : Reg) (k : Nat) (h : k < (regsUpTo s x).length) :
    (regsUpTo s x)[k] = s.reg ⟨k, by have := x.isLt; rw [length_regsUpTo] at h; omega⟩ := by
  simp [regsUpTo, State.reg, Vector.get_eq_getElem]

/-- Loading registers from `r` up: the loaded ones hold the bytes, the others are as before. -/
theorem get_loadRegs (bs : List Byte) (v : Vector Byte 16) (r : Nat) (q : Reg) :
    (loadRegs v r bs).get q =
      if h : r ≤ q.val ∧ q.val - r < bs.length then bs[q.val - r]'h.2 else v.get q := by
  induction bs generalizing v r with
  | nil => simp [loadRegs]
  | cons b bs ih =>
    rw [loadRegs, ih]
    by_cases hq : q.val = r
    · subst hq
      rw [dif_neg (by omega), dif_pos (by simp)]
      simp [Vector.get_eq_getElem]
    · by_cases h : r + 1 ≤ q.val ∧ q.val - (r + 1) < bs.length
      · rw [dif_pos h, dif_pos (by simp only [List.length_cons]; omega)]
        simp only [show q.val - r = q.val - (r + 1) + 1 by omega, List.getElem_cons_succ]
      · rw [dif_neg h, dif_neg (by simp only [List.length_cons]; omega)]
        simp only [Vector.get_eq_getElem]
        exact Vector.getElem_setIfInBounds_ne _ (fun e => hq e.symm)

/-! ## Framebuffer cells (20_memory.md R35) -/

/-- A flip changes its cell and no other. -/
@[simp] theorem fbGet_fbFlip (fb : Framebuffer) {idx : Nat} (c : Nat) (h : idx < 2048) :
    fbGet (fbFlip fb idx) c = (fbGet fb c ^^ decide (c = idx)) := by
  simp only [fbGet, fbFlip, BitVec.getLsbD_xor, BitVec.getLsbD_twoPow, h, decide_true, Bool.true_and]
  simp [eq_comm]

/-- Every cell of a cleared framebuffer is 0. -/
@[simp] theorem fbGet_fbClear (c : Nat) : fbGet fbClear c = false := by simp [fbGet, fbClear]

/-- Two framebuffers with the same cells are the same. -/
theorem framebuffer_ext {a b : Framebuffer} (h : ∀ c, c < 2048 → fbGet a c = fbGet b c) : a = b :=
  BitVec.eq_of_getLsbD_eq h

/-- Plotting distinct cells that all exist: each is flipped, the others stay, and the flag tells whether one was set. -/
theorem plotPixels_ok {l : List Nat} (hd : l.Nodup) (hl : ∀ idx ∈ l, idx < 2048) (fb : Framebuffer) (hit : Bool) :
    ∃ fb', plotPixels l fb hit = .ok (fb', hit || l.any (fbGet fb)) ∧
      ∀ c, fbGet fb' c = (fbGet fb c ^^ decide (c ∈ l)) := by
  induction l generalizing fb hit with
  | nil => exact ⟨fb, by simp [plotPixels], by simp⟩
  | cons idx l ih =>
    obtain ⟨hn, hd'⟩ := List.nodup_cons.1 hd
    have hidx : idx < 2048 := hl idx (by simp)
    obtain ⟨fb', hok, hcell⟩ := ih hd' (fun j hj => hl j (by simp [hj])) (fbFlip fb idx) (hit || fbGet fb idx)
    have hany : l.any (fbGet (fbFlip fb idx)) = l.any (fbGet fb) := by
      rw [Bool.eq_iff_iff, List.any_eq_true, List.any_eq_true]
      refine exists_congr fun j => and_congr_right fun hj => ?_
      have : j ≠ idx := fun e => hn (e ▸ hj)
      rw [fbGet_fbFlip _ _ hidx]; simp [this]
    refine ⟨fb', ?_, fun c => ?_⟩
    · rw [plotPixels, if_pos (show idx < Config.fbSize from hidx), hok, hany]
      simp [Bool.or_assoc]
    · rw [hcell, fbGet_fbFlip _ _ hidx]
      by_cases hc : c = idx
      · subst hc; simp [hn]
      · simp [hc]

/-- Plotting stops at the first cell that does not exist, and names it. -/
theorem plotPixels_error {l : List Nat} (fb : Framebuffer) (hit : Bool) (f : Fault) :
    plotPixels l fb hit = .error f ↔
      ∃ idx, l.find? (fun c => decide (2048 ≤ c)) = some idx ∧ f = .framebufferIndexOutOfRange idx := by
  induction l generalizing fb hit with
  | nil => simp [plotPixels]
  | cons idx l ih =>
    rw [plotPixels]
    by_cases h : idx < 2048
    · rw [if_pos (show idx < Config.fbSize from h), ih, List.find?_cons_of_neg (by simpa using h)]
    · rw [if_neg (show ¬ idx < Config.fbSize from h), List.find?_cons_of_pos (by simpa using h)]
      simp [eq_comm]

/-! ## Sprite pixels (44_display.md R80, R82) -/

/-- The pixels of one row: one per set bit, bit `7 - col` at column `col`. -/
theorem mem_rowPixels {x0 y0 row : Nat} {b : Byte} {c : Nat} :
    c ∈ rowPixels x0 y0 row b ↔ ∃ col, col < 8 ∧ b.getLsbD (7 - col) = true ∧ c = x0 + col + (y0 + row) * 64 := by
  simp only [rowPixels, pixelIndex, List.mem_map, List.mem_filter, List.mem_range]
  constructor
  · rintro ⟨col, ⟨h1, h2⟩, rfl⟩; exact ⟨col, h1, h2, rfl⟩
  · rintro ⟨col, h1, h2, rfl⟩; exact ⟨col, ⟨h1, h2⟩, rfl⟩

/-- The pixels of a sprite: one per set bit of each row. -/
theorem mem_spritePixels {x0 y0 : Nat} {bs : List Byte} {row0 c : Nat} :
    c ∈ spritePixels x0 y0 row0 bs ↔ ∃ (k col : Nat) (h : k < bs.length), col < 8 ∧
      bs[k].getLsbD (7 - col) = true ∧ c = x0 + col + (y0 + (row0 + k)) * 64 := by
  induction bs generalizing row0 with
  | nil => simp [spritePixels]
  | cons b bs ih =>
    rw [spritePixels, List.mem_append, mem_rowPixels, ih]
    constructor
    · rintro (⟨col, h1, h2, h3⟩ | ⟨k, col, hk, h1, h2, h3⟩)
      · exact ⟨0, col, by simp, h1, h2, h3⟩
      · exact ⟨k + 1, col, by simpa using hk, h1, by simpa using h2, by rw [h3, Nat.add_right_comm row0 1 k]; rfl⟩
    · rintro ⟨k, col, hk, h1, h2, h3⟩
      cases k with
      | zero => exact .inl ⟨col, h1, h2, h3⟩
      | succ k =>
        exact .inr ⟨k, col, by simpa using hk, h1, by simpa using h2, by rw [h3]; omega⟩

/-- No two set bits of one row map to one index. -/
theorem nodup_rowPixels (x0 y0 row : Nat) (b : Byte) : (rowPixels x0 y0 row b).Nodup := by
  unfold rowPixels
  refine List.Nodup.map_on ?_ (List.Nodup.filter _ List.nodup_range)
  intro a _ c _ h
  simp only [pixelIndex] at h; omega

/-- No two set bits of one sprite map to one index (44_display.md R82, corner case c). -/
theorem nodup_spritePixels (x0 y0 row0 : Nat) (bs : List Byte) : (spritePixels x0 y0 row0 bs).Nodup := by
  induction bs generalizing row0 with
  | nil => exact List.nodup_nil
  | cons b bs ih =>
    rw [spritePixels, List.nodup_append]
    refine ⟨nodup_rowPixels _ _ _ _, ih _, ?_⟩
    intro a ha c hc e
    obtain ⟨col, h1, -, h3⟩ := mem_rowPixels.1 ha
    obtain ⟨k, col', -, h1', -, h3'⟩ := mem_spritePixels.1 hc
    omega

/-- The first pixel of one row that does not exist, left to right. -/
theorem find_rowPixels {x0 y0 row col : Nat} {b : Byte} (hc : col < 8) (hb : b.getLsbD (7 - col) = true)
    (hbad : 2048 ≤ x0 + col + (y0 + row) * 64)
    (hfirst : ∀ j, j < col → b.getLsbD (7 - j) = true → x0 + j + (y0 + row) * 64 < 2048) :
    (rowPixels x0 y0 row b).find? (fun c => decide (2048 ≤ c)) = some (x0 + col + (y0 + row) * 64) := by
  have : (List.range 8).find? (fun j => b.getLsbD (7 - j) && decide (2048 ≤ pixelIndex x0 y0 row j)) = some col := by
    rw [List.find?_range_eq_some]
    refine ⟨by simp [hb, pixelIndex, hbad], by simpa using hc, fun j hj => ?_⟩
    cases hbj : b.getLsbD (7 - j) with
    | false => simp
    | true =>
      simp only [pixelIndex, Bool.true_and, Bool.not_eq_true']
      exact decide_eq_false (Nat.not_le.2 (hfirst j hj hbj))
  rw [rowPixels, List.find?_map, List.find?_filter]
  simp only [Function.comp_def, Bool.decide_and, Bool.decide_eq_true]
  rw [this]; rfl

/-- The first pixel of a sprite that does not exist, in row-major order (44_display.md R82). -/
theorem find_spritePixels {x0 y0 : Nat} {bs : List Byte} {row0 k col : Nat} (hk : k < bs.length) (hc : col < 8)
    (hb : bs[k].getLsbD (7 - col) = true) (hbad : 2048 ≤ x0 + col + (y0 + (row0 + k)) * 64)
    (hfirst : ∀ (k' j : Nat) (h : k' < bs.length), j < 8 → k' < k ∨ (k' = k ∧ j < col) →
      bs[k'].getLsbD (7 - j) = true → x0 + j + (y0 + (row0 + k')) * 64 < 2048) :
    (spritePixels x0 y0 row0 bs).find? (fun c => decide (2048 ≤ c)) = some (x0 + col + (y0 + (row0 + k)) * 64) := by
  induction bs generalizing row0 k with
  | nil => simp at hk
  | cons b bs ih =>
    rw [spritePixels, List.find?_append]
    cases k with
    | zero =>
      rw [find_rowPixels (row := row0) hc (by simpa using hb) (by simpa using hbad)
        (fun j hj hbj => by simpa using hfirst 0 j (by simp) (by omega) (.inr ⟨rfl, hj⟩) (by simpa using hbj))]
      rfl
    | succ k =>
      have hnone : (rowPixels x0 y0 row0 b).find? (fun c => decide (2048 ≤ c)) = none := by
        rw [List.find?_eq_none]
        intro c hcm
        obtain ⟨j, hj, hbj, rfl⟩ := mem_rowPixels.1 hcm
        have := hfirst 0 j (by simp) hj (.inl (by omega)) hbj
        simp; omega
      rw [hnone, Option.none_or, ih (row0 := row0 + 1) (k := k) (by simpa using hk) (by simpa using hb) (by omega)
        (fun k' j h hj ho hbj => by
          have := hfirst (k' + 1) j (by simpa using h) hj (by omega) (by simpa using hbj)
          omega)]
      congr 2; omega

/-! ## The key wait (45_keys.md R88) -/

/-- All an event can do: nothing, end the wait with a key, or end it with a quit. -/
theorem receiveEvent_cases (x : Reg) (s : State) (e : HostEvent) :
    (e = .other ∧ receiveEvent x s e = s) ∨
    (∃ k, e = .keyDown k ∧
      receiveEvent x s e = (((s.setAwaiting false).setReg x (keyByte k)).pressKey k).advance) ∨
    (e = .quit ∧ receiveEvent x s e = (s.setAwaiting false).haltWith .quit) := by
  cases e with
  | other => exact .inl ⟨rfl, rfl⟩
  | keyDown k => exact .inr (.inl ⟨k, rfl, rfl⟩)
  | quit => exact .inr (.inr ⟨rfl, rfl⟩)

/-! ## Raising (60_exceptions.md R101) -/

/-- What raising answers. -/
theorem State.raise_eq (s : State) (f : Fault) : s.raise f = .next (s.haltWith (.runtime f)) := rfl

@[simp] theorem State.orRaise_ok (s t : State) : s.orRaise (.ok t) = .next t := rfl

@[simp] theorem State.orRaise_error (s : State) (f : Fault) : s.orRaise (.error f) = s.raise f := rfl

end Sys2Proof.Machine
end

