-- ==== Sys2Proof/Laws/Exec.lean ====
section
/-! SUPPORT. For each instruction that can fault or wait, all its execute step can answer, said once: the state it goes on
with, or the fault it raises from the state the cycle had (60_exceptions.md R99, R101). The other instructions answer by
definition. -/

namespace Sys2Proof.Machine

/-- RET goes on after the popped address, or raises StackUnderflow. -/
theorem execRet_cases (s : State) :
    (∃ h : 0 < s.sp.val, execRet s = .next
      { s with sp := ⟨s.sp.val - 1, by have := s.sp.isLt; omega⟩,
               pc := s.stack[s.sp.val - 1]'(by have := s.sp.isLt; omega) + 2#16 }) ∨
    (s.sp.val = 0 ∧ execRet s = s.raise .stackUnderflow) := by
  rcases s.pop_cases with ⟨h, e⟩ | ⟨h, e⟩
  · exact .inl ⟨h, by simp only [execRet, e]; rfl⟩
  · exact .inr ⟨h, by simp only [execRet, e]⟩

/-- SYS always goes on: every 12-bit address exists. -/
theorem execSys_eq (nnn : Addr) (s : State) :
    execSys nnn s = .next (s.setPc (zextByte (s.mem.read nnn.toNat))) := by
  rcases s.memRead_cases nnn.toNat with ⟨-, e⟩ | ⟨h, -⟩
  · simp only [execSys, e]
  · have := nnn.isLt; simp only [Config.memSize] at h; omega

/-- CALL pushes and jumps, or raises StackOverflow. -/
theorem execCall_cases (nnn : Addr) (s : State) :
    (∃ h : s.sp.val < 16, execCall nnn s = .next
      { s with stack := s.stack.set s.sp.val s.pc h, sp := ⟨s.sp.val + 1, by omega⟩, pc := zextAddr nnn }) ∨
    (s.sp.val = 16 ∧ execCall nnn s = s.raise .stackOverflow) := by
  rcases s.push_cases s.pc with ⟨h, e⟩ | ⟨h, e⟩
  · exact .inl ⟨h, by simp only [execCall, e]; rfl⟩
  · exact .inr ⟨h, by simp only [execCall, e]⟩

/-- SKP skips and consumes, or goes on, or raises KeyIndexOutOfRange. -/
theorem execSkp_cases (x : Reg) (s : State) :
    (∃ h : (s.reg x).toNat < 16, execSkp x s = .next
      (if s.keyDown ⟨(s.reg x).toNat, h⟩ then (s.releaseKey ⟨(s.reg x).toNat, h⟩).skipIf true else s.skipIf false)) ∨
    (15 < (s.reg x).toNat ∧ execSkp x s = s.raise (.keyIndexOutOfRange (s.reg x).toNat)) := by
  rcases keyOperand_cases s x with ⟨h, e⟩ | ⟨h, e⟩
  · exact .inl ⟨h, by simp only [execSkp, e]⟩
  · exact .inr ⟨h, by simp only [execSkp, e]⟩

/-- SKNP skips or goes on, or raises KeyIndexOutOfRange. -/
theorem execSknp_cases (x : Reg) (s : State) :
    (∃ h : (s.reg x).toNat < 16, execSknp x s = .next (s.skipIf (!(s.keyDown ⟨(s.reg x).toNat, h⟩)))) ∨
    (15 < (s.reg x).toNat ∧ execSknp x s = s.raise (.keyIndexOutOfRange (s.reg x).toNat)) := by
  rcases keyOperand_cases s x with ⟨h, e⟩ | ⟨h, e⟩
  · exact .inl ⟨h, by simp only [execSknp, e]⟩
  · exact .inr ⟨h, by simp only [execSknp, e]⟩

/-- WKEY begins to wait, or takes one event: another one, a key-down, or a quit. -/
theorem execWkey_cases (x : Reg) (s : State) :
    (s.awaitingKey = false ∧ execWkey x s = .next (s.setAwaiting true)) ∨
    (s.awaitingKey = true ∧ s.nextEvent.1 = .other ∧ execWkey x s = .next s.nextEvent.2) ∨
    (s.awaitingKey = true ∧ ∃ k, s.nextEvent.1 = .keyDown k ∧ execWkey x s =
      .next (((s.nextEvent.2.setAwaiting false).setReg x (keyByte k)).pressKey k).advance) ∨
    (s.awaitingKey = true ∧ s.nextEvent.1 = .quit ∧ execWkey x s =
      .next ((s.nextEvent.2.setAwaiting false).haltWith .quit)) := by
  cases ha : s.awaitingKey with
  | false => exact .inl ⟨rfl, by simp [execWkey, ha]⟩
  | true =>
    have he : execWkey x s = .next (receiveEvent x s.nextEvent.2 s.nextEvent.1) := by simp [execWkey, ha]
    rw [he]
    rcases receiveEvent_cases x s.nextEvent.2 s.nextEvent.1 with ⟨h, e⟩ | ⟨k, h, e⟩ | ⟨h, e⟩
    · exact .inr (.inl ⟨rfl, h, by rw [e]⟩)
    · exact .inr (.inr (.inl ⟨rfl, k, h, by rw [e]⟩))
    · exact .inr (.inr (.inr ⟨rfl, h, by rw [e]⟩))

/-- BCD stores three digits, or raises MemoryOutOfRange. -/
theorem execBcd_cases (x : Reg) (s : State) :
    (s.i.toNat + 2 < Config.memSize ∧ execBcd x s =
      .next { s.advance with mem := s.mem.writeList s.i.toNat (decimalDigits (s.reg x)) }) ∨
    (Config.memSize ≤ s.i.toNat + 2 ∧
      execBcd x s = s.raise (.memoryOutOfRange (max s.i.toNat Config.memSize))) := by
  have hl : (decimalDigits (s.reg x)).length = 3 := rfl
  rcases s.advance.memWriteList_cases s.i.toNat (decimalDigits (s.reg x)) with ⟨h, e⟩ | ⟨h, e⟩
  · exact .inl ⟨by omega, by rw [execBcd, dataBase, e]; rfl⟩
  · exact .inr ⟨by omega, by rw [execBcd, dataBase, e]; rfl⟩

/-- STM stores the registers, or raises MemoryOutOfRange. -/
theorem execStm_cases (x : Reg) (s : State) :
    (s.i.toNat + x.val < Config.memSize ∧ execStm x s =
      .next { s.advance with mem := s.mem.writeList s.i.toNat (regsUpTo s x) }) ∨
    (Config.memSize ≤ s.i.toNat + x.val ∧
      execStm x s = s.raise (.memoryOutOfRange (max s.i.toNat Config.memSize))) := by
  have hl := length_regsUpTo s x
  rcases s.advance.memWriteList_cases s.i.toNat (regsUpTo s x) with ⟨h, e⟩ | ⟨h, e⟩
  · exact .inl ⟨by omega, by rw [execStm, dataBase, e]; rfl⟩
  · exact .inr ⟨by omega, by rw [execStm, dataBase, e]; rfl⟩

/-- LDM loads the registers, or raises MemoryOutOfRange. -/
theorem execLdm_cases (x : Reg) (s : State) :
    (s.i.toNat + x.val < Config.memSize ∧ execLdm x s =
      .next { s.advance with v := loadRegs s.v 0 (s.mem.readList s.i.toNat (x.val + 1)) }) ∨
    (Config.memSize ≤ s.i.toNat + x.val ∧
      execLdm x s = s.raise (.memoryOutOfRange (max s.i.toNat Config.memSize))) := by
  rcases s.memReadList_cases s.i.toNat (x.val + 1) with ⟨h, e⟩ | ⟨h, e⟩
  · exact .inl ⟨by omega, by simp only [execLdm, dataBase, e]; rfl⟩
  · exact .inr ⟨by omega, by simp only [execLdm, dataBase, e]⟩

/-- The sprite's set pixels of DRW, in row-major order. -/
def drwPixels (x y : Reg) (n : Nibble) (s : State) : List Nat :=
  spritePixels (s.reg x).toNat (s.reg y).toNat 0 (s.mem.readList s.i.toNat n.toNat)

/-- DRW draws, or raises MemoryOutOfRange, or raises FramebufferIndexOutOfRange with the first bad pixel. -/
theorem execDrw_cases (x y : Reg) (n : Nibble) (s : State) :
    ((n.toNat = 0 ∨ s.i.toNat + n.toNat ≤ Config.memSize) ∧ (∀ c ∈ drwPixels x y n s, c < 2048) ∧
      ∃ fb', execDrw x y n s = .next (s.drawn fb' ((drwPixels x y n s).any (fbGet s.fb))) ∧
        ∀ c, fbGet fb' c = (fbGet s.fb c ^^ decide (c ∈ drwPixels x y n s))) ∨
    ((n.toNat ≠ 0 ∧ Config.memSize < s.i.toNat + n.toNat) ∧
      execDrw x y n s = s.raise (.memoryOutOfRange (max s.i.toNat Config.memSize))) ∨
    ((n.toNat = 0 ∨ s.i.toNat + n.toNat ≤ Config.memSize) ∧
      ∃ idx, (drwPixels x y n s).find? (fun c => decide (2048 ≤ c)) = some idx ∧
        execDrw x y n s = s.raise (.framebufferIndexOutOfRange idx)) := by
  rcases s.memReadList_cases s.i.toNat n.toNat with ⟨h, e⟩ | ⟨h, e⟩
  · by_cases hin : ∀ c ∈ drwPixels x y n s, c < 2048
    · obtain ⟨fb', hok, hcell⟩ := plotPixels_ok (nodup_spritePixels _ _ _ _) hin s.fb false
      refine .inl ⟨h, hin, fb', ?_, hcell⟩
      simp only [execDrw, dataBase, e]
      rw [hok]; simp [drwPixels]
    · right; right
      refine ⟨h, ?_⟩
      obtain ⟨idx, hf⟩ : ∃ idx, (drwPixels x y n s).find? (fun c => decide (2048 ≤ c)) = some idx := by
        rw [← Option.isSome_iff_exists, List.find?_isSome]
        push Not at hin
        obtain ⟨c, hc, hge⟩ := hin
        exact ⟨c, hc, by simpa using hge⟩
      refine ⟨idx, hf, ?_⟩
      have := (plotPixels_error s.fb false (.framebufferIndexOutOfRange idx)).2 ⟨idx, hf, rfl⟩
      simp only [execDrw, dataBase, e]
      rw [drwPixels] at this
      rw [this]
  · exact .inr (.inl ⟨h, by simp only [execDrw, dataBase, e]⟩)

/-- A pixel of DRW is a set bit of a sprite row (44_display.md R80). -/
theorem mem_drwPixels {x y : Reg} {n : Nibble} {s : State} {c : Nat} :
    c ∈ drwPixels x y n s ↔ ∃ row col, row < n.toNat ∧ col < 8 ∧
      (s.mem.read (s.i.toNat + row)).getLsbD (7 - col) = true ∧
      c = (s.reg x).toNat + col + ((s.reg y).toNat + row) * 64 := by
  rw [drwPixels, mem_spritePixels]
  constructor
  · rintro ⟨k, col, h, h1, h2, h3⟩
    rw [Memory.length_readList] at h
    exact ⟨k, col, h, h1, by simpa using h2, by rw [h3]; omega⟩
  · rintro ⟨k, col, h, h1, h2, h3⟩
    exact ⟨k, col, by rwa [Memory.length_readList], h1, by simpa using h2, by rw [h3]; omega⟩

end Sys2Proof.Machine
end

