-- ==== Sys2Proof/Laws/PerInstr.lean ====
section
/-! SUPPORT. Statements for all instructions, one lemma per constructor. `TableRow`: the word the encoder builds for a
well-formed instruction is covered by the instruction's own row of the opcode table (30_encoding.md R41), and the word
`opcode_none` carries is covered by none (R47). -/

namespace Sys2Proof.Laws.TableRow

/-- The row of an instruction; `opcode_none` is the fallback and has none (30_encoding.md R41). -/
def rowOf : Instr → Option OpcodeRow
  | .cls => some ⟨"CLS", 0x00E0, 0xFFFF, []⟩
  | .ret => some ⟨"RET", 0x00EE, 0xFFFF, []⟩
  | .sys _ => some ⟨"SYS", 0x0000, 0xF000, [0x00E0, 0x00EE]⟩
  | .jp _ => some ⟨"JP", 0x1000, 0xF000, []⟩
  | .call _ => some ⟨"CALL", 0x2000, 0xF000, []⟩
  | .sei _ _ => some ⟨"SEI", 0x3000, 0xF000, []⟩
  | .snei _ _ => some ⟨"SNEI", 0x4000, 0xF000, []⟩
  | .ser _ _ => some ⟨"SER", 0x5000, 0xF00F, []⟩
  | .ldi _ _ => some ⟨"LDI", 0x6000, 0xF000, []⟩
  | .addi _ _ => some ⟨"ADDI", 0x7000, 0xF000, []⟩
  | .ldx _ _ => some ⟨"LDX", 0x8000, 0xF00F, []⟩
  | .orx _ _ => some ⟨"ORX", 0x8001, 0xF00F, []⟩
  | .anx _ _ => some ⟨"ANX", 0x8002, 0xF00F, []⟩
  | .xor _ _ => some ⟨"XOR", 0x8003, 0xF00F, []⟩
  | .adc _ _ => some ⟨"ADC", 0x8004, 0xF00F, []⟩
  | .sub _ _ => some ⟨"SUB", 0x8005, 0xF00F, []⟩
  | .srh _ _ => some ⟨"SRH", 0x8006, 0xF00F, []⟩
  | .subn _ _ => some ⟨"SUBN", 0x8007, 0xF00F, []⟩
  | .shl _ _ => some ⟨"SHL", 0x800E, 0xF00F, []⟩
  | .sner _ _ => some ⟨"SNER", 0x9000, 0xF00F, []⟩
  | .lda _ => some ⟨"LDA", 0xA000, 0xF000, []⟩
  | .jpv0 _ => some ⟨"JPV0", 0xB000, 0xF000, []⟩
  | .rnd _ _ => some ⟨"RND", 0xC000, 0xF000, []⟩
  | .drw _ _ _ => some ⟨"DRW", 0xD000, 0xF000, []⟩
  | .skp _ => some ⟨"SKP", 0xE09E, 0xF0FF, []⟩
  | .sknp _ => some ⟨"SKNP", 0xE0A1, 0xF0FF, []⟩
  | .lddt _ => some ⟨"LDDT", 0xF007, 0xF0FF, []⟩
  | .wkey _ => some ⟨"WKEY", 0xF00A, 0xF0FF, []⟩
  | .stdt _ => some ⟨"STDT", 0xF015, 0xF0FF, []⟩
  | .stst _ => some ⟨"STST", 0xF018, 0xF0FF, []⟩
  | .adda _ => some ⟨"ADDA", 0xF01E, 0xF0FF, []⟩
  | .font _ => some ⟨"FONT", 0xF029, 0xF0FF, []⟩
  | .bcd _ => some ⟨"BCD", 0xF033, 0xF0FF, []⟩
  | .stm _ => some ⟨"STM", 0xF055, 0xF0FF, []⟩
  | .ldm _ => some ⟨"LDM", 0xF065, 0xF0FF, []⟩
  | .opcodeNone _ => none

/-- A well-formed instruction's word is covered by its row, a row of the table; the word of `opcode_none` by no row. -/
def Statement (i : Instr) : Prop :=
  i.wellFormed = true →
    match rowOf i with
    | some r => r ∈ opcodeRows ∧ r.covers (encode i) = true
    | none => recognized (encode i) = false

/-- Format F-NNN under the class mask. -/
theorem wordNNN_and (c : Nibble) (nnn : Addr) : wordNNN c nnn &&& 0xF000#16 = wordNNN c 0#12 :=
  calc wordNNN c nnn &&& 0xF000#16 = (c ++ nnn) &&& (0xF#4 ++ 0x000#12) := rfl
    _ = (c &&& 0xF#4) ++ (nnn &&& 0x000#12) := BitVec.and_append
    _ = wordNNN c 0#12 := by rw [show (0xF#4 : Nibble) = BitVec.allOnes 4 from rfl, BitVec.and_allOnes]; simp [wordNNN]

/-- Format F-XNN under the class mask. -/
theorem wordXNN_and (c : Nibble) (x : Reg) (nn : Byte) : wordXNN c x nn &&& 0xF000#16 = wordXNN c 0 0#8 :=
  calc wordXNN c x nn &&& 0xF000#16 = (c ++ regBits x ++ nn) &&& (0xF#4 ++ 0x0#4 ++ 0x00#8) := rfl
    _ = ((c &&& 0xF#4) ++ (regBits x &&& 0x0#4)) ++ (nn &&& 0x00#8) := by rw [BitVec.and_append, BitVec.and_append]
    _ = wordXNN c 0 0#8 := by
      rw [show (0xF#4 : Nibble) = BitVec.allOnes 4 from rfl, BitVec.and_allOnes]; simp [wordXNN, regBits]

/-- Format F-X under the class and low-byte mask. -/
theorem wordXNN_and_low (c : Nibble) (x : Reg) (nn : Byte) : wordXNN c x nn &&& 0xF0FF#16 = wordXNN c 0 nn :=
  calc wordXNN c x nn &&& 0xF0FF#16 = (c ++ regBits x ++ nn) &&& (0xF#4 ++ 0x0#4 ++ 0xFF#8) := rfl
    _ = ((c &&& 0xF#4) ++ (regBits x &&& 0x0#4)) ++ (nn &&& 0xFF#8) := by rw [BitVec.and_append, BitVec.and_append]
    _ = wordXNN c 0 nn := by
      rw [show (0xF#4 : Nibble) = BitVec.allOnes 4 from rfl, BitVec.and_allOnes,
        show (0xFF#8 : Byte) = BitVec.allOnes 8 from rfl, BitVec.and_allOnes]; simp [wordXNN, regBits]

/-- Format F-XY under the class and low-nibble mask. -/
theorem wordXYN_and_low (c : Nibble) (x y : Reg) (n : Nibble) : wordXYN c x y n &&& 0xF00F#16 = wordXYN c 0 0 n :=
  calc wordXYN c x y n &&& 0xF00F#16
      = (c ++ regBits x ++ regBits y ++ n) &&& (0xF#4 ++ 0x0#4 ++ 0x0#4 ++ 0xF#4) := rfl
    _ = (((c &&& 0xF#4) ++ (regBits x &&& 0x0#4)) ++ (regBits y &&& 0x0#4)) ++ (n &&& 0xF#4) := by
      rw [BitVec.and_append, BitVec.and_append, BitVec.and_append]
    _ = wordXYN c 0 0 n := by
      rw [show (0xF#4 : Nibble) = BitVec.allOnes 4 from rfl, BitVec.and_allOnes, BitVec.and_allOnes]
      simp [wordXYN, regBits]

/-- Format F-XYN under the class mask. -/
theorem wordXYN_and (c : Nibble) (x y : Reg) (n : Nibble) : wordXYN c x y n &&& 0xF000#16 = wordXYN c 0 0 0#4 :=
  calc wordXYN c x y n &&& 0xF000#16
      = (c ++ regBits x ++ regBits y ++ n) &&& (0xF#4 ++ 0x0#4 ++ 0x0#4 ++ 0x0#4) := rfl
    _ = (((c &&& 0xF#4) ++ (regBits x &&& 0x0#4)) ++ (regBits y &&& 0x0#4)) ++ (n &&& 0x0#4) := by
      rw [BitVec.and_append, BitVec.and_append, BitVec.and_append]
    _ = wordXYN c 0 0 0#4 := by
      rw [show (0xF#4 : Nibble) = BitVec.allOnes 4 from rfl, BitVec.and_allOnes]; simp [wordXYN, regBits]

/-- A row without exceptions covers a word that matches it. -/
theorem covers_of_and {r : OpcodeRow} {w : Word} (hx : r.excludes = []) (h : w &&& r.mask = r.value) :
    r.covers w = true := by
  simp [OpcodeRow.covers, hx, h]

theorem cls : Statement (.cls) := fun _ => ⟨by decide, by decide⟩

theorem ret : Statement (.ret) := fun _ => ⟨by decide, by decide⟩

theorem sys (nnn : Addr) : Statement (.sys nnn) := by
  intro h
  refine ⟨by decide, ?_⟩
  simp only [Instr.wellFormed, Bool.and_eq_true, bne_iff_ne, ne_eq] at h
  have hne : ∀ a : Addr, nnn ≠ a → wordNNN 0#4 nnn ≠ wordNNN 0#4 a := fun a hn e => hn (by
    rw [← nnnOf_wordNNN 0#4 nnn, e, nnnOf_wordNNN])
  have h1 : wordNNN 0#4 nnn ≠ 0x00E0#16 := hne 0x0E0#12 h.1
  have h2 : wordNNN 0#4 nnn ≠ 0x00EE#16 := hne 0x0EE#12 h.2
  have h3 : wordNNN 0#4 nnn &&& 0xF000#16 = 0x0000#16 := wordNNN_and 0#4 nnn
  simp [OpcodeRow.covers, encode, h1, h2, h3]

theorem jp (nnn : Addr) : Statement (.jp nnn) := fun _ => ⟨by decide, covers_of_and rfl (wordNNN_and _ nnn)⟩

theorem call (nnn : Addr) : Statement (.call nnn) := fun _ => ⟨by decide, covers_of_and rfl (wordNNN_and _ nnn)⟩

theorem sei (x : Reg) (nn : Byte) : Statement (.sei x nn) := fun _ => ⟨by decide, covers_of_and rfl (wordXNN_and _ x nn)⟩

theorem snei (x : Reg) (nn : Byte) : Statement (.snei x nn) := fun _ => ⟨by decide, covers_of_and rfl (wordXNN_and _ x nn)⟩

theorem ser (x y : Reg) : Statement (.ser x y) := fun _ => ⟨by decide, covers_of_and rfl (wordXYN_and_low _ x y _)⟩

theorem ldi (x : Reg) (nn : Byte) : Statement (.ldi x nn) := fun _ => ⟨by decide, covers_of_and rfl (wordXNN_and _ x nn)⟩

theorem addi (x : Reg) (nn : Byte) : Statement (.addi x nn) := fun _ => ⟨by decide, covers_of_and rfl (wordXNN_and _ x nn)⟩

theorem ldx (x y : Reg) : Statement (.ldx x y) := fun _ => ⟨by decide, covers_of_and rfl (wordXYN_and_low _ x y _)⟩

theorem orx (x y : Reg) : Statement (.orx x y) := fun _ => ⟨by decide, covers_of_and rfl (wordXYN_and_low _ x y _)⟩

theorem anx (x y : Reg) : Statement (.anx x y) := fun _ => ⟨by decide, covers_of_and rfl (wordXYN_and_low _ x y _)⟩

theorem xor (x y : Reg) : Statement (.xor x y) := fun _ => ⟨by decide, covers_of_and rfl (wordXYN_and_low _ x y _)⟩

theorem adc (x y : Reg) : Statement (.adc x y) := fun _ => ⟨by decide, covers_of_and rfl (wordXYN_and_low _ x y _)⟩

theorem sub (x y : Reg) : Statement (.sub x y) := fun _ => ⟨by decide, covers_of_and rfl (wordXYN_and_low _ x y _)⟩

theorem srh (x y : Reg) : Statement (.srh x y) := fun _ => ⟨by decide, covers_of_and rfl (wordXYN_and_low _ x y _)⟩

theorem subn (x y : Reg) : Statement (.subn x y) := fun _ => ⟨by decide, covers_of_and rfl (wordXYN_and_low _ x y _)⟩

theorem shl (x y : Reg) : Statement (.shl x y) := fun _ => ⟨by decide, covers_of_and rfl (wordXYN_and_low _ x y _)⟩

theorem sner (x y : Reg) : Statement (.sner x y) := fun _ => ⟨by decide, covers_of_and rfl (wordXYN_and_low _ x y _)⟩

theorem lda (nnn : Addr) : Statement (.lda nnn) := fun _ => ⟨by decide, covers_of_and rfl (wordNNN_and _ nnn)⟩

theorem jpv0 (nnn : Addr) : Statement (.jpv0 nnn) := fun _ => ⟨by decide, covers_of_and rfl (wordNNN_and _ nnn)⟩

theorem rnd (x : Reg) (nn : Byte) : Statement (.rnd x nn) := fun _ => ⟨by decide, covers_of_and rfl (wordXNN_and _ x nn)⟩

theorem drw (x y : Reg) (n : Nibble) : Statement (.drw x y n) := fun _ => ⟨by decide, covers_of_and rfl (wordXYN_and _ x y n)⟩

theorem skp (x : Reg) : Statement (.skp x) := fun _ => ⟨by decide, covers_of_and rfl (wordXNN_and_low _ x _)⟩

theorem sknp (x : Reg) : Statement (.sknp x) := fun _ => ⟨by decide, covers_of_and rfl (wordXNN_and_low _ x _)⟩

theorem lddt (x : Reg) : Statement (.lddt x) := fun _ => ⟨by decide, covers_of_and rfl (wordXNN_and_low _ x _)⟩

theorem wkey (x : Reg) : Statement (.wkey x) := fun _ => ⟨by decide, covers_of_and rfl (wordXNN_and_low _ x _)⟩

theorem stdt (x : Reg) : Statement (.stdt x) := fun _ => ⟨by decide, covers_of_and rfl (wordXNN_and_low _ x _)⟩

theorem stst (x : Reg) : Statement (.stst x) := fun _ => ⟨by decide, covers_of_and rfl (wordXNN_and_low _ x _)⟩

theorem adda (x : Reg) : Statement (.adda x) := fun _ => ⟨by decide, covers_of_and rfl (wordXNN_and_low _ x _)⟩

theorem font (x : Reg) : Statement (.font x) := fun _ => ⟨by decide, covers_of_and rfl (wordXNN_and_low _ x _)⟩

theorem bcd (x : Reg) : Statement (.bcd x) := fun _ => ⟨by decide, covers_of_and rfl (wordXNN_and_low _ x _)⟩

theorem stm (x : Reg) : Statement (.stm x) := fun _ => ⟨by decide, covers_of_and rfl (wordXNN_and_low _ x _)⟩

theorem ldm (x : Reg) : Statement (.ldm x) := fun _ => ⟨by decide, covers_of_and rfl (wordXNN_and_low _ x _)⟩

theorem opcodeNone (w : Word) : Statement (.opcodeNone w) := by
  intro h
  show recognized w = false
  simpa [Instr.wellFormed] using h

end Sys2Proof.Laws.TableRow
end

