-- ==== Sys2Proof/Tests/Slice0.lean ====
section
/-! SUPPORT. Tests of the model: ill-formed terms, one decoded word per constructor, one step of each instruction on the
vectors of 95_test_vectors.md, and for each obligation with hypotheses a state that meets them. -/

open Sys2Proof Sys2Proof.Machine Sys2Proof.Safety

namespace Sys2Proof.Tests

set_option Elab.async false

/-! ## Helpers -/

/-- Registers with the listed values, the others 0. -/
def regs (l : List (Nat × Byte)) : Vector Byte 16 :=
  l.foldl (fun v p => v.setIfInBounds p.1 p.2) State.reset.v

/-- Keys with the listed ones pressed. -/
def keys (l : List Nat) : Vector Bool 16 := l.foldl (fun v k => v.setIfInBounds k true) State.reset.key

/-- Fresh memory with the bytes stored from the address up. -/
def bytesAt (a : Nat) (bs : List Byte) : Memory := Memory.writeList [] a bs

/-- A framebuffer with the listed cells set. -/
def cells (l : List Nat) : Framebuffer := l.foldl fbFlip fbClear

/-- Does an outcome go on in a state of which `p` holds. -/
def after (r : Result) (p : State → Bool) : Bool :=
  match r with
  | .next t => p t
  | .fault _ => false
  | .refused _ => false

/-- Does an outcome refuse with this reason. -/
def refuses (r : Result) (f : Refusal) : Bool :=
  match r with
  | .next _ => false
  | .fault _ => false
  | .refused g => g == f

theorem exists_of_after {r : Result} {p : State → Bool} (h : after r p = true) : ∃ t, r = .next t ∧ p t = true := by
  cases r with
  | next t => exact ⟨t, rfl, h⟩
  | fault f => simp [after] at h
  | refused f => simp [after] at h

/-- One cycle of the word `w` at 0x0200, the state being as the vector says beyond fresh. -/
def run (w : Nat) (s : State) (p : State → Bool) : Bool := after (step (s.withFetchWord 16 w)) p

/-! ## Ill-formed terms -/

/-- The word 0x00E0 is CLS, never SYS (30_encoding.md R42). -/
theorem test_wellFormed_refuses_sys_cls : (Instr.sys 0x0E0).wellFormed = false := by decide

/-- The word 0x00EE is RET, never SYS (30_encoding.md R42). -/
theorem test_wellFormed_refuses_sys_ret : (Instr.sys 0x0EE).wellFormed = false := by decide

/-- `opcode_none` carries no word of an instruction (30_encoding.md R47). -/
theorem test_wellFormed_refuses_recognized_word : (Instr.opcodeNone 0x8AB7).wellFormed = false := by decide

theorem test_wellFormed_accepts : (Instr.sys 0x0E1).wellFormed = true ∧ (Instr.opcodeNone 0x8AB8).wellFormed = true := by
  decide

/-! ## One word per constructor, written from 30_encoding.md R41 as class, X, Y, N -/

theorem test_decode_cls : decode 0b0000_0000_1110_0000 = .cls ∧ encode (.cls) = 0x00E0 := by decide

theorem test_decode_ret : decode 0b0000_0000_1110_1110 = .ret ∧ encode (.ret) = 0x00EE := by decide

theorem test_decode_sys : decode 0b0000_0001_1110_0000 = .sys 0x1E0 ∧ encode (.sys 0x1E0) = 0x01E0 := by decide

theorem test_decode_jp : decode 0b0001_1010_1011_1100 = .jp 0xABC ∧ encode (.jp 0xABC) = 0x1ABC := by decide

theorem test_decode_call : decode 0b0010_0011_0000_0001 = .call 0x301 ∧ encode (.call 0x301) = 0x2301 := by decide

theorem test_decode_sei : decode 0b0011_1111_0000_0001 = .sei 15 0x01 ∧ encode (.sei 15 0x01) = 0x3F01 := by decide

theorem test_decode_snei : decode 0b0100_0010_1000_0000 = .snei 2 0x80 ∧ encode (.snei 2 0x80) = 0x4280 := by decide

theorem test_decode_ser : decode 0b0101_0001_0010_0000 = .ser 1 2 ∧ encode (.ser 1 2) = 0x5120 := by decide

theorem test_decode_ldi : decode 0b0110_0001_1111_1111 = .ldi 1 0xFF ∧ encode (.ldi 1 0xFF) = 0x61FF := by decide

theorem test_decode_addi : decode 0b0111_1110_0000_0010 = .addi 14 0x02 ∧ encode (.addi 14 0x02) = 0x7E02 := by decide

theorem test_decode_ldx : decode 0b1000_0000_0001_0000 = .ldx 0 1 ∧ encode (.ldx 0 1) = 0x8010 := by decide

theorem test_decode_orx : decode 0b1000_0011_0111_0001 = .orx 3 7 ∧ encode (.orx 3 7) = 0x8371 := by decide

theorem test_decode_anx : decode 0b1000_1111_0000_0010 = .anx 15 0 ∧ encode (.anx 15 0) = 0x8F02 := by decide

theorem test_decode_xor : decode 0b1000_1010_0101_0011 = .xor 10 5 ∧ encode (.xor 10 5) = 0x8A53 := by decide

theorem test_decode_adc : decode 0b1000_0101_0110_0100 = .adc 5 6 ∧ encode (.adc 5 6) = 0x8564 := by decide

theorem test_decode_sub : decode 0b1000_0101_0110_0101 = .sub 5 6 ∧ encode (.sub 5 6) = 0x8565 := by decide

theorem test_decode_srh : decode 0b1000_0010_0111_0110 = .srh 2 7 ∧ encode (.srh 2 7) = 0x8276 := by decide

theorem test_decode_subn : decode 0b1000_1010_1011_0111 = .subn 10 11 ∧ encode (.subn 10 11) = 0x8AB7 := by decide

theorem test_decode_shl : decode 0b1000_1010_1011_1110 = .shl 10 11 ∧ encode (.shl 10 11) = 0x8ABE := by decide

theorem test_decode_sner : decode 0b1001_0011_0100_0000 = .sner 3 4 ∧ encode (.sner 3 4) = 0x9340 := by decide

theorem test_decode_lda : decode 0b1010_0011_0000_0000 = .lda 0x300 ∧ encode (.lda 0x300) = 0xA300 := by decide

theorem test_decode_jpv0 : decode 0b1011_1111_1111_1111 = .jpv0 0xFFF ∧ encode (.jpv0 0xFFF) = 0xBFFF := by decide

theorem test_decode_rnd : decode 0b1100_0011_0000_1111 = .rnd 3 0x0F ∧ encode (.rnd 3 0x0F) = 0xC30F := by decide

theorem test_decode_drw : decode 0b1101_0001_0010_0101 = .drw 1 2 5 ∧ encode (.drw 1 2 5) = 0xD125 := by decide

theorem test_decode_skp : decode 0b1110_0001_1001_1110 = .skp 1 ∧ encode (.skp 1) = 0xE19E := by decide

theorem test_decode_sknp : decode 0b1110_0001_1010_0001 = .sknp 1 ∧ encode (.sknp 1) = 0xE1A1 := by decide

theorem test_decode_lddt : decode 0b1111_0001_0000_0111 = .lddt 1 ∧ encode (.lddt 1) = 0xF107 := by decide

theorem test_decode_wkey : decode 0b1111_0011_0000_1010 = .wkey 3 ∧ encode (.wkey 3) = 0xF30A := by decide

theorem test_decode_stdt : decode 0b1111_0100_0001_0101 = .stdt 4 ∧ encode (.stdt 4) = 0xF415 := by decide

theorem test_decode_stst : decode 0b1111_0101_0001_1000 = .stst 5 ∧ encode (.stst 5) = 0xF518 := by decide

theorem test_decode_adda : decode 0b1111_0010_0001_1110 = .adda 2 ∧ encode (.adda 2) = 0xF21E := by decide

theorem test_decode_font : decode 0b1111_1010_0010_1001 = .font 10 ∧ encode (.font 10) = 0xFA29 := by decide

theorem test_decode_bcd : decode 0b1111_0000_0011_0011 = .bcd 0 ∧ encode (.bcd 0) = 0xF033 := by decide

theorem test_decode_stm : decode 0b1111_1111_0101_0101 = .stm 15 ∧ encode (.stm 15) = 0xFF55 := by decide

theorem test_decode_ldm : decode 0b1111_0010_0110_0101 = .ldm 2 ∧ encode (.ldm 2) = 0xF265 := by decide

theorem test_decode_opcodeNone : decode 0b0101_0000_0000_0001 = .opcodeNone 0x5001 ∧ encode (.opcodeNone 0x5001) = 0x5001 := by decide

/-- The bytes of a word, the high byte first (20_memory.md R27): `60 05` is LDI V0, 0x05. -/
theorem test_decodeBytes : decodeBytes [0x60, 0x05, 0xAA] = .ok (.ldi 0 0x05, [0xAA]) := by decide

/-- One byte is no instruction. -/
theorem test_decodeBytes_truncated : decodeBytes [0x60] = .error .truncated := by decide

theorem test_decodeTableWord : decodeTableWord 16 0x8AB7 = some (.subn 10 11) := by decide

/-! ## One step, on the vectors of 95_test_vectors.md -/

/-- J1. -/
theorem test_jp : run 0x1204 State.reset (fun t => t.pc == 0x0204 && t.dt == 0xFF && t.st == 0xFF) = true := by decide +kernel

/-- J2. -/
theorem test_jp_spin : run 0x1200 State.reset (fun t => t.pc == 0x0200) = true := by decide +kernel

/-- J4. -/
theorem test_call : run 0x2300 State.reset (fun t => t.stack.get 0 == 0x0200 && t.sp == 1 && t.pc == 0x0300) = true := by decide +kernel

/-- J5. -/
theorem test_call_overflow : run 0x2300 { State.reset with sp := 16 } (fun t => t.runState == .halt && t.haltCause == .runtime (.stackOverflow) && t.pc == 0x0200 && t.sp == 16 && t.dt == 0x00) = true := by decide +kernel

/-- J6. -/
theorem test_ret : run 0x00EE { State.reset with sp := 1, stack := State.reset.stack.set 0 0x0204 } (fun t => t.sp == 0 && t.pc == 0x0206 && t.stack.get 0 == 0x0204) = true := by decide +kernel

/-- J7. -/
theorem test_ret_underflow : run 0x00EE State.reset (fun t => t.runState == .halt && t.haltCause == .runtime (.stackUnderflow) && t.pc == 0x0200 && t.dt == 0x00 && t.st == 0x00) = true := by decide +kernel

/-- J8. -/
theorem test_jpv0 : run 0xB300 { State.reset with v := regs [(0, 0x04)] } (fun t => t.pc == 0x0304) = true := by decide +kernel

/-- J9. -/
theorem test_jpv0_top : run 0xBFFF { State.reset with v := regs [(0, 0xFF)] } (fun t => t.pc == 0x10FE && t.runState == .exec) = true := by decide +kernel

/-- J10. -/
theorem test_sys : run 0x0300 { State.reset with mem := bytesAt 0x300 [0x50] } (fun t => t.pc == 0x0050) = true := by decide +kernel

/-- J11. -/
theorem test_sys_zero : run 0x0000 State.reset (fun t => t.pc == 0x00F0) = true := by decide +kernel

/-- K1. -/
theorem test_sei_taken : run 0x3100 State.reset (fun t => t.pc == 0x0204) = true := by decide +kernel

/-- K2. -/
theorem test_sei_not_taken : run 0x3100 { State.reset with v := regs [(1, 0x01)] } (fun t => t.pc == 0x0202) = true := by decide +kernel

/-- K3. -/
theorem test_snei_taken : run 0x4208 { State.reset with v := regs [(2, 0x07)] } (fun t => t.pc == 0x0204) = true := by decide +kernel

/-- K4. -/
theorem test_snei_not_taken : run 0x4207 { State.reset with v := regs [(2, 0x07)] } (fun t => t.pc == 0x0202) = true := by decide +kernel

/-- K5. -/
theorem test_ser_taken : run 0x5340 { State.reset with v := regs [(3, 0x2A), (4, 0x2A)] } (fun t => t.pc == 0x0204) = true := by decide +kernel

/-- K6. -/
theorem test_ser_not_taken : run 0x5340 { State.reset with v := regs [(3, 0x2A), (4, 0x2B)] } (fun t => t.pc == 0x0202) = true := by decide +kernel

/-- K7. -/
theorem test_sner_taken : run 0x9340 { State.reset with v := regs [(3, 0x01), (4, 0x02)] } (fun t => t.pc == 0x0204) = true := by decide +kernel

/-- K8. -/
theorem test_sner_not_taken : run 0x9340 { State.reset with v := regs [(3, 0x01), (4, 0x01)] } (fun t => t.pc == 0x0202) = true := by decide +kernel

/-- M1. -/
theorem test_ldi : run 0x6005 State.reset (fun t => t.reg 0 == 0x05 && t.pc == 0x0202) = true := by decide +kernel

/-- M2. -/
theorem test_ldi_flag_register : run 0x6FAB State.reset (fun t => t.reg 15 == 0xAB) = true := by decide +kernel

/-- M4. -/
theorem test_addi_wraps : run 0x7101 { State.reset with v := regs [(1, 0xFF), (15, 0x07)] } (fun t => t.reg 1 == 0x00 && t.reg 15 == 0x07 && t.pc == 0x0202) = true := by decide +kernel

/-- M3. -/
theorem test_addi_subtracts_one : run 0x71FF { State.reset with v := regs [(1, 0x05)] } (fun t => t.reg 1 == 0x04) = true := by decide +kernel

/-- M7. -/
theorem test_lda : run 0xAFFF State.reset (fun t => t.i == 0x0FFF && t.pc == 0x0202) = true := by decide +kernel

/-- A1. -/
theorem test_ldx : run 0x8010 { State.reset with v := regs [(1, 0x0A), (15, 0x07)] } (fun t => t.reg 0 == 0x0A && t.reg 1 == 0x0A && t.reg 15 == 0x07) = true := by decide +kernel

/-- A6. -/
theorem test_orx : run 0x8011 { State.reset with v := regs [(15, 0x01), (0, 0xF0), (1, 0x0F)] } (fun t => t.reg 0 == 0xFF && t.reg 15 == 0x01) = true := by decide +kernel

/-- A3. -/
theorem test_anx : run 0x8012 { State.reset with v := regs [(0, 0x0C), (1, 0x0A), (15, 0x07)] } (fun t => t.reg 0 == 0x08 && t.reg 15 == 0x07) = true := by decide +kernel

/-- A4. -/
theorem test_xor : run 0x8013 { State.reset with v := regs [(0, 0x0C), (1, 0x0A), (15, 0x07)] } (fun t => t.reg 0 == 0x06 && t.reg 15 == 0x07) = true := by decide +kernel

/-- A7, the source's example S4. -/
theorem test_adc_carry : run 0x8564 { State.reset with v := regs [(5, 0xFF), (6, 0x02)] } (fun t => t.reg 5 == 0x01 && t.reg 15 == 0x01 && t.pc == 0x0202) = true := by decide +kernel

/-- A13. -/
theorem test_adc_flag_wins : run 0x8F14 { State.reset with v := regs [(15, 0x10), (1, 0x20)] } (fun t => t.reg 15 == 0x00) = true := by decide +kernel

/-- A15, the source's example S4. -/
theorem test_sub_borrow : run 0x8565 { State.reset with v := regs [(5, 0x02), (6, 0x05)] } (fun t => t.reg 5 == 0xFD && t.reg 15 == 0x00) = true := by decide +kernel

/-- A17. -/
theorem test_sub_equal : run 0x8565 { State.reset with v := regs [(5, 0x05), (6, 0x05), (15, 0x01)] } (fun t => t.reg 5 == 0x00 && t.reg 15 == 0x00) = true := by decide +kernel

/-- A20. -/
theorem test_subn : run 0x8567 { State.reset with v := regs [(5, 0x02), (6, 0x05)] } (fun t => t.reg 5 == 0x03 && t.reg 6 == 0x05 && t.reg 15 == 0x01) = true := by decide +kernel

/-- A21. -/
theorem test_subn_borrow : run 0x8567 { State.reset with v := regs [(5, 0x05), (6, 0x02)] } (fun t => t.reg 5 == 0xFD && t.reg 15 == 0x00) = true := by decide +kernel

/-- A26. -/
theorem test_srh_in_place : run 0x8276 { State.reset with v := regs [(2, 0x05), (7, 0xF0)] } (fun t => t.reg 2 == 0x02 && t.reg 7 == 0xF0 && t.reg 15 == 0x01) = true := by decide +kernel

/-- A30. -/
theorem test_srh_flag_wins : run 0x8F06 { State.reset with v := regs [(15, 0x03)] } (fun t => t.reg 15 == 0x01) = true := by decide +kernel

/-- A27. -/
theorem test_shl : run 0x820E { State.reset with v := regs [(2, 0x81)] } (fun t => t.reg 2 == 0x02 && t.reg 15 == 0x01) = true := by decide +kernel

/-- A28. -/
theorem test_shl_no_carry : run 0x820E { State.reset with v := regs [(2, 0x40)] } (fun t => t.reg 2 == 0x80 && t.reg 15 == 0x00) = true := by decide +kernel

/-- W1. -/
theorem test_cls : run 0x00E0 { State.reset with fb := cells [5, 2047] } (fun t => t.fb == 0 && t.outputs == [.displayClear] && t.pc == 0x0202) = true := by decide +kernel

/-- W2. -/
theorem test_drw_glyph : run 0xD125 { State.reset with v := regs [(1, 5), (2, 3)] } (fun t => t.fb == cells [197, 198, 199, 200, 261, 264, 325, 328, 389, 392, 453, 454, 455, 456] &&
    t.reg 15 == 0x00 && t.pc == 0x0202 && t.outputs == [.displayDraw t.fb]) = true := by decide +kernel

/-- W10. -/
theorem test_drw_collision : run 0xD011 { State.reset with fb := cells [10], v := regs [(0, 8)], i := 0x300, mem := bytesAt 0x300 [0x30] } (fun t => t.fb == cells [11] && t.reg 15 == 0x01) = true := by decide +kernel

/-! Corner cases of DRW, the faults among them. -/

/-- W4 (a row spill) and W6 (past the last cell). -/
theorem test_drw_spills_and_faults : run 0xD011 { State.reset with v := regs [(0, 62)], i := 0x300, mem := bytesAt 0x300 [0xF0] } (fun t => t.fb == cells [62, 63, 64, 65]) = true ∧
    run 0xD011 { State.reset with v := regs [(0, 63), (1, 31)], i := 0x300, mem := bytesAt 0x300 [0xC0] } (fun t =>
      t.runState == .halt && t.haltCause == .runtime (.framebufferIndexOutOfRange 2048) && t.fb == 0 &&
      t.pc == 0x0200 && t.outputs == [.report t.haltCause]) = true := by decide +kernel

/-- Y1. -/
theorem test_skp_consumes : run 0xE39E { State.reset with v := regs [(3, 7)], key := keys [7] } (fun t => t.keyDown 7 == false && t.pc == 0x0204) = true := by decide +kernel

/-- Y6. -/
theorem test_skp_index_fault : run 0xE09E { State.reset with v := regs [(0, 16)] } (fun t => t.runState == .halt && t.haltCause == .runtime (.keyIndexOutOfRange 16) && t.pc == 0x0200 && t.dt == 0x00) = true := by decide +kernel

/-- Y4. -/
theorem test_sknp_pressed : run 0xE3A1 { State.reset with v := regs [(3, 7)], key := keys [7] } (fun t => t.keyDown 7 && t.pc == 0x0202) = true := by decide +kernel

/-- Y3. -/
theorem test_sknp_not_pressed : run 0xE3A1 { State.reset with v := regs [(3, 7)] } (fun t => t.pc == 0x0204) = true := by decide +kernel

/-- P7: WKEY raises `awaiting_key` and waits, `pc` and timers as before; a latched key does not end the wait (Y10). -/
theorem test_wkey_waits : run 0xF40A { State.reset with events := [.keyDown 0xA], key := keys [3] } (fun t =>
    t.awaitingKey && t.pc == 0x0200 && t.dt == 0x00 && t.key == keys [3] && t.events == [.keyDown 0xA]) = true := by
  decide +kernel

/-- A WKEY at 0x0200 that waits, with the given events to come. -/
def waitsWith (l : List HostEvent) : State :=
  { State.reset.withFetchWord 16 0xF40A with awaitingKey := true, started := true, events := l }

/-- Y8, its last event (and Y10: the latch holds one key), and Y9, its last event. -/
theorem test_wkey_ends :
    after (step { waitsWith [.keyDown 0xA] with key := keys [3] }) (fun t => t.reg 4 == 0x0A && t.key == keys [0xA] &&
      t.pc == 0x0202 && t.dt == 0xFF && t.st == 0xFF && t.awaitingKey == false && t.events == []) = true ∧
    after (step (waitsWith [.quit])) (fun t => t.runState == .halt && t.haltCause == .quit && t.pc == 0x0200 &&
      t.reg 4 == 0x00 && t.dt == 0xFF && t.awaitingKey == false) = true := by decide +kernel

/-- T1. -/
theorem test_lddt : run 0xF107 { State.reset with dt := 0x02 } (fun t => t.reg 1 == 0x02 && t.dt == 0x01) = true := by decide +kernel

/-- T3. -/
theorem test_stdt : run 0xF015 State.reset (fun t => t.dt == 0xFF) = true := by decide +kernel

/-- T4. -/
theorem test_stst : run 0xF018 { State.reset with v := regs [(0, 0x10)] } (fun t => t.st == 0x0F) = true := by decide +kernel

/-- X2. -/
theorem test_adda_not_masked : run 0xF21E { State.reset with i := 0x0FFF, v := regs [(2, 0x01)] } (fun t => t.i == 0x1000 && t.reg 15 == 0x00) = true := by decide +kernel

/-- X3. -/
theorem test_adda_wraps : run 0xF21E { State.reset with i := 0xFFFF, v := regs [(2, 0x01)] } (fun t => t.i == 0x0000) = true := by decide +kernel

/-- X6. -/
theorem test_font_not_masked : run 0xF029 { State.reset with v := regs [(0, 0xFF)] } (fun t => t.i == 0x04FB) = true := by decide +kernel

/-- X7, the source's example S6. -/
theorem test_bcd : run 0xF033 { State.reset with v := regs [(0, 234)], i := 0x0300 } (fun t => t.mem.readList 0x300 3 == [0x02, 0x03, 0x04] && t.i == 0x0300) = true := by decide +kernel

/-- X10. -/
theorem test_bcd_fault : run 0xF033 { State.reset with v := regs [(0, 9)], i := 0x0FFE } (fun t => t.runState == .halt && t.haltCause == .runtime (.memoryOutOfRange 0x1000) && t.mem.readList 0xFFE 2 == [0x00, 0x00]) = true := by decide +kernel

/-- X11. -/
theorem test_stm : run 0xF255 { State.reset with v := regs [(0, 0x11), (1, 0x22), (2, 0x33), (3, 0x44)], i := 0x0300 } (fun t => t.mem.readList 0x300 4 == [0x11, 0x22, 0x33, 0x00] && t.i == 0x0300) = true := by decide +kernel

/-- X13. -/
theorem test_stm_fault : run 0xFF55 { State.reset with i := 0x0FF1 } (fun t => t.runState == .halt && t.haltCause == .runtime (.memoryOutOfRange 0x1000)) = true := by decide +kernel

/-- X15. -/
theorem test_ldm : run 0xF265 { State.reset with mem := bytesAt 0x300 [0x02, 0x03, 0x04], i := 0x0300, v := regs [(3, 0x99)] } (fun t => t.v == regs [(0, 0x02), (1, 0x03), (2, 0x04), (3, 0x99)]) = true := by decide +kernel

/-- X17. -/
theorem test_ldm_fault : run 0xF065 { State.reset with i := 0x1000 } (fun t => t.runState == .halt && t.haltCause == .runtime (.memoryOutOfRange 0x1000)) = true := by decide +kernel

/-- H8. -/
theorem test_opcodeNone : run 0xF0FF State.reset (fun t => t.runState == .halt && t.haltCause == .decodeFault 0xF0FF && t.pc == 0x0200 && t.dt == 0xFF &&
    t.outputs == [.report (.decodeFault 0xF0FF)]) = true := by decide +kernel

/-- M9 and M10: the draw is free, so the test names it. -/
theorem test_rnd : ∃ t u, exec (.rnd 3 0x00) State.reset = .next t ∧ t.reg 3 = 0x00 ∧
    exec (.rnd 3 0xFF) State.reset = .next u ∧ u.reg 3 = Config.randByte 0 :=
  ⟨_, _, rfl, by simp, rfl, by simpa [State.draw, State.reset] using BitVec.and_allOnes (x := Config.randByte 0)⟩

/-- H1, H2, H3: fetching at the end of memory. -/
theorem test_fetch_end_of_memory :
    fetch { State.reset with pc := 0x0FFF } = .error (.memoryOutOfRange 0x1000) ∧
    fetch { State.reset with pc := 0x1000 } = .error (.memoryOutOfRange 0x1000) ∧
    fetch { State.reset with pc := 0x0FFE, mem := bytesAt 0xFFE [0x12, 0x00] } = .ok 0x1200 := by decide +kernel

/-- Y11: `set_key(2)` then `set_key(9)`. -/
theorem test_setKey_twice :
    after (step { State.reset with requests := [.setKey 2, .setKey 9] }) (fun t => after (step t) (fun u =>
      u.key == keys [9] && u.pc == 0x0200)) = true := by decide +kernel

/-- R113: `load` after an `update` in PAUSE is refused. -/
theorem test_load_after_update_in_pause :
    after (step { State.reset with runState := .pause, requests := [.update, .load [0x12] 0x200] }) (fun t =>
      t.started && refuses (step t) .loadAfterStart) = true := by decide +kernel

/-- P5: with nothing loaded the first cycle from reset is SYS 0. -/
theorem test_reset_runs_sys : after (step State.reset) (fun t => t.pc == 0x00F0 && t.dt == 0xFF) = true := by
  decide +kernel

/-- S9: the first and the last glyph of the font. -/
theorem test_font_ends : State.reset.mem.readList 0x000 5 = [0xF0, 0x90, 0x90, 0x90, 0xF0] ∧
    State.reset.mem.readList 0x04B 5 = [0xF0, 0x80, 0xF0, 0x80, 0x80] := by decide

/-! ## Witnesses: states and operands that meet the hypotheses of each obligation -/

theorem witness_DecodeOfEncodeIsTheInstruction :
    (Instr.sys 0xFFF).wellFormed = true ∧ (Instr.opcodeNone 0xFFFF).wellFormed = true := by decide

theorem witness_OpcodeRowsAreDisjoint : (⟨"SYS", 0x0000, 0xF000, [0x00E0, 0x00EE]⟩ : OpcodeRow) ∈ opcodeRows ∧
    (⟨"SYS", 0x0000, 0xF000, [0x00E0, 0x00EE]⟩ : OpcodeRow).covers 0x0FEE = true := by decide

theorem witness_UnrecognizedWordsAreTheListedOnes : decode 0xFFFF = .opcodeNone 0xFFFF := by decide

/-- A fresh state with LDI V0, 0x05 at 0x0200. -/
def loaded : State := State.reset.withFetchWord 16 0x6005

/-- The last word of memory, JP 0x200 at 0x0FFE, with an `update` pending before another transaction. -/
def lastWord : State :=
  { State.reset with pc := 0x0FFE, mem := bytesAt 0xFFE [0x12, 0x00], requests := [.update, .quit] }

/-- The host calls `update` of itself; an `update` is pending; a wait goes on whatever is pending. -/
theorem witness_StepRunsTheDecodedInstruction :
    (CycleFrom loaded loaded ∧ Fetchable loaded.pc.toNat ∧
      decodeBytes [loaded.mem.read loaded.pc.toNat, loaded.mem.read (loaded.pc.toNat + 1)] = .ok (.ldi 0 0x05, [])) ∧
    (CycleFrom lastWord { lastWord with requests := [.quit] } ∧ Fetchable lastWord.pc.toNat ∧
      decodeBytes [lastWord.mem.read lastWord.pc.toNat, lastWord.mem.read (lastWord.pc.toNat + 1)] =
        .ok (.jp 0x200, [])) ∧
    CycleFrom { waitsWith [] with requests := [.quit] } { waitsWith [] with requests := [.quit] } :=
  ⟨⟨⟨rfl, .inr (.inl ⟨rfl, rfl, rfl⟩)⟩, by decide +kernel⟩,
    ⟨⟨rfl, .inr (.inr ⟨rfl, _, rfl, rfl⟩)⟩, by decide +kernel⟩, rfl, .inl ⟨rfl, rfl⟩⟩

theorem witness_FetchOutsideMemoryFaults :
    (CycleFrom { State.reset with pc := 0x0FFF } { State.reset with pc := 0x0FFF } ∧
      ¬ Fetchable ({ State.reset with pc := 0x0FFF } : State).pc.toNat) ∧
    (CycleFrom { State.reset with pc := 0x1000, requests := [.update] } { State.reset with pc := 0x1000 } ∧
      ¬ Fetchable ({ State.reset with pc := 0x1000, requests := [.update] } : State).pc.toNat) :=
  ⟨⟨⟨rfl, .inr (.inl ⟨rfl, rfl, rfl⟩)⟩, by decide⟩, ⟨⟨rfl, .inr (.inr ⟨rfl, _, rfl, rfl⟩)⟩, by decide⟩⟩

/-- A machine halted by `quit`, with the given transactions pending. -/
def halted (l : List HostRequest) : State := { State.reset.haltWith .quit with requests := l }

theorem witness_HaltIsLeftOnlyByReset :
    ((halted []).runState = .halt ∧ (halted []).requests = []) ∧
    ((halted [.update]).runState = .halt ∧ (halted [.update]).requests = .update :: [] ∧
      HostRequest.update ≠ .reset) ∧
    ((halted [.reset]).runState = .halt ∧ (halted [.reset]).requests = .reset :: []) := by decide

/-- A fresh machine in a run state, with the given transactions pending. -/
def inState (r : RunState) (l : List HostRequest) : State := { State.reset with runState := r, requests := l }

theorem witness_PauseResumeAndQuitOfTheHost :
    (midWait (inState .pause []) = false ∧ (inState .pause []).runState = .pause ∧
      (inState .pause []).requests = []) ∧
    (∀ r ∈ [HostRequest.update, .pause, .resume, .quit],
      midWait (inState .pause [r]) = false ∧ (inState .pause [r]).runState = .pause ∧
      (inState .pause [r]).requests = r :: []) ∧
    (∀ r ∈ [HostRequest.pause, .resume, .quit],
      midWait (inState .exec [r]) = false ∧ (inState .exec [r]).runState = .exec ∧
      (inState .exec [r]).requests = r :: []) := by decide

theorem witness_SetKeyLatchesExactlyOneKey :
    (midWait (inState .exec [.setKey 15]) = false ∧ (inState .exec [.setKey 15]).runState ≠ .halt ∧
      (inState .exec [.setKey 15]).requests = .setKey 15 :: [] ∧ 15 < 16) ∧
    (midWait (inState .pause [.setKey 16]) = false ∧ (inState .pause [.setKey 16]).runState ≠ .halt ∧
      (inState .pause [.setKey 16]).requests = .setKey 16 :: [] ∧ 15 < 16) := by decide

/-- Two bytes that fit exactly at 0x0FFE and do not fit at 0x0FFF. -/
theorem witness_LoadCopiesTheImage :
    (midWait (inState .exec [.load [0x12, 0x00] 0x0FFE]) = false ∧
      (inState .exec [.load [0x12, 0x00] 0x0FFE]).runState ≠ .halt ∧
      (inState .exec [.load [0x12, 0x00] 0x0FFE]).mem.wf = true ∧
      (inState .exec [.load [0x12, 0x00] 0x0FFE]).requests = .load [0x12, 0x00] 0x0FFE :: [] ∧
      (inState .exec [.load [0x12, 0x00] 0x0FFE]).started = false ∧
      0x0FFE + ([0x12, 0x00] : List Byte).length ≤ Config.memSize) ∧
    ((inState .exec [.load [0x12, 0x00] 0x0FFF]).requests = .load [0x12, 0x00] 0x0FFF :: [] ∧
      (inState .exec [.load [0x12, 0x00] 0x0FFF]).started = false ∧
      Config.memSize < 0x0FFF + ([0x12, 0x00] : List Byte).length) ∧
    (midWait { inState .exec [.load [] 0] with started := true } = false ∧
      ({ inState .exec [.load [] 0] with started := true } : State).mem.wf = true ∧
      ({ inState .exec [.load [] 0] with started := true } : State).started = true) := by decide

theorem witness_HostResetRestoresEverything : midWait (halted [.reset]) = false ∧
    (halted [.reset]).requests = .reset :: [] ∧ midWait (inState .pause [.reset]) = false := by decide

/-- One entry, a full stack, an empty stack. -/
theorem witness_ReturnPopsAndAddsTwo :
    ((0 : Fin 16).val + 1 = ({ State.reset with sp := 1 } : State).sp.val) ∧
    ((15 : Fin 16).val + 1 = ({ State.reset with sp := 16 } : State).sp.val) ∧ State.reset.sp.val = 0 := by decide

/-- The last free slot, and none. -/
theorem witness_CallPushesItsOwnAddress : (15 : Fin 16).val = ({ State.reset with sp := 15 } : State).sp.val ∧
    (0 : Fin 16).val = State.reset.sp.val ∧ ({ State.reset with sp := 16 } : State).sp.val = 16 := by decide

theorem witness_ReturnUndoesCall : ({ State.reset with sp := 15 } : State).sp.val < 16 := by decide

theorem witness_SkipsOnRegisters : ((1 : Nibble) ≠ 0 ∧ ((5 : Nibble) = 5 ∨ (5 : Nibble) = 9)) ∧
    ((15 : Nibble) ≠ 0 ∧ ((9 : Nibble) = 5 ∨ (9 : Nibble) = 9)) := by decide

theorem witness_AddSetsCarry : (14 : Reg) ≠ vf := by decide

theorem witness_FlagIsZeroOrOne : writesFlag (.adc 5 6) = true ∧ State.reset.runState = .exec ∧
    ∃ t, exec (.adc 5 6) State.reset = .next t ∧ t.runState = .exec := ⟨rfl, rfl, _, rfl, rfl⟩

/-- A sprite of one row at 0x300, drawn from column and row. -/
def sprite (col row : Byte) (b : Byte) (fb : Framebuffer) : State :=
  { State.reset with v := regs [(0, col), (1, row)], i := 0x300, mem := bytesAt 0x300 [b], fb := fb }

theorem drawable_of_all {s : State} {x y : Reg} {n : Nibble}
    (h1 : n.toNat = 0 ∨ s.i.toNat + n.toNat ≤ Config.memSize)
    (h2 : ∀ row < n.toNat, ∀ col < 8, (s.mem.read (s.i.toNat + row)).getLsbD (7 - col) = true →
      spriteIndex s x y row col < Config.fbSize) : Drawable s x y n :=
  ⟨h1, by rintro c ⟨row, col, ⟨hr, hc, hb⟩, rfl⟩; exact h2 row hr col hc hb⟩

/-- W5: the last cell of the framebuffer, with a collision and without; and a sprite of no rows. -/
theorem witness_DrawFlipsTheCoveredCells :
    (Drawable (sprite 63 31 0x80 (cells [2047])) 0 1 1 ∧
      ∃ c, Covers (sprite 63 31 0x80 (cells [2047])) 0 1 1 c ∧
        fbGet (sprite 63 31 0x80 (cells [2047])).fb c = true) ∧
    (Drawable (sprite 63 31 0x80 fbClear) 0 1 1 ∧
      ∀ c, Covers (sprite 63 31 0x80 fbClear) 0 1 1 c → fbGet (sprite 63 31 0x80 fbClear).fb c = false) ∧
    Drawable { State.reset with i := 0xFFFF } 0 1 0 := by
  refine ⟨⟨drawable_of_all (by decide +kernel) (by decide +kernel), 2047, ⟨0, 0, ?_, ?_⟩, ?_⟩,
    ⟨drawable_of_all (by decide +kernel) (by decide +kernel), fun c _ => ?_⟩,
    drawable_of_all (by decide +kernel) (by decide +kernel)⟩
  · exact ⟨by decide +kernel, by decide, by decide +kernel⟩
  · decide +kernel
  · decide +kernel
  · simp [sprite, fbGet, fbClear]

/-- W8: the second of two rows does not exist. -/
theorem witness_DrawOutsideMemoryFaults : (2 : Nibble).toNat ≠ 0 ∧
    Config.memSize < ({ State.reset with i := 0x0FFF } : State).i.toNat + (2 : Nibble).toNat := by decide

/-- W6: the second pixel is cell 2048, the first is cell 2047. -/
theorem witness_DrawPastTheLastCellFaults :
    (sprite 63 31 0xC0 fbClear).i.toNat + (1 : Nibble).toNat ≤ Config.memSize ∧
    SpriteBit (sprite 63 31 0xC0 fbClear) 1 0 1 ∧
    Config.fbSize ≤ spriteIndex (sprite 63 31 0xC0 fbClear) 0 1 0 1 ∧
    ∀ row' col', SpriteBit (sprite 63 31 0xC0 fbClear) 1 row' col' → row' < 0 ∨ (row' = 0 ∧ col' < 1) →
      spriteIndex (sprite 63 31 0xC0 fbClear) 0 1 row' col' < Config.fbSize := by
  refine ⟨by decide +kernel, ⟨by decide +kernel, by decide, by decide +kernel⟩, by decide +kernel, ?_⟩
  rintro row' col' - h
  obtain ⟨rfl, rfl⟩ : row' = 0 ∧ col' = 0 := by omega
  decide +kernel

/-- S5: the glyph of program P4. -/
theorem witness_DrawingTwiceRestoresTheFramebuffer :
    Drawable (sprite 5 3 0xF0 fbClear) 0 1 1 ∧ (∃ t, exec (.drw 0 1 1) (sprite 5 3 0xF0 fbClear) = .next t ∧
      t.reg 0 = (sprite 5 3 0xF0 fbClear).reg 0 ∧ t.reg 1 = (sprite 5 3 0xF0 fbClear).reg 1) ∧
    ∃ c, Covers (sprite 5 3 0xF0 fbClear) 0 1 1 c ∧ fbGet (sprite 5 3 0xF0 fbClear).fb c = false := by
  refine ⟨drawable_of_all (by decide +kernel) (by decide +kernel), ?_, 197,
    ⟨0, 0, ⟨by decide +kernel, by decide, by decide +kernel⟩, by decide +kernel⟩, by decide +kernel⟩
  obtain ⟨t, e, h⟩ := exists_of_after (r := exec (.drw 0 1 1) (sprite 5 3 0xF0 fbClear))
    (p := fun t => t.reg 0 == 5 && t.reg 1 == 3) (by decide +kernel)
  simp only [Bool.and_eq_true, beq_iff_eq] at h
  exact ⟨t, e, h.1.trans (by decide +kernel), h.2.trans (by decide +kernel)⟩

/-- The last key, pressed and not. -/
theorem witness_KeySkips : (15 : Key).val = ({ State.reset with v := regs [(3, 15)], key := keys [15] } : State).reg 3 ∧
    ({ State.reset with v := regs [(3, 15)], key := keys [15] } : State).keyDown 15 = true ∧
    State.reset.keyDown 15 = false := by decide +kernel

theorem witness_KeyIndexAboveFifteenFaults :
    15 < (({ State.reset with v := regs [(3, 16)] } : State).reg 3).toNat := by decide +kernel

theorem witness_WaitKeyReceivesAKey : State.reset.awaitingKey = false ∧
    ((waitsWith [.keyDown 15, .quit]).awaitingKey = true ∧
      Supplies (waitsWith [.keyDown 15, .quit]) (.keyDown 15) [.quit] 0) ∧
    ((waitsWith [.keyDown 0]).awaitingKey = true ∧ Supplies (waitsWith [.keyDown 0]) (.keyDown 0) [] 0) :=
  ⟨rfl, ⟨rfl, .inl ⟨rfl, rfl⟩⟩, ⟨rfl, .inl ⟨rfl, rfl⟩⟩⟩

theorem witness_WaitKeyQuitsOrGoesOnWaiting :
    ((waitsWith [.quit]).awaitingKey = true ∧ Supplies (waitsWith [.quit]) .quit [] 0) ∧
    ((waitsWith [.other, .quit]).awaitingKey = true ∧ Supplies (waitsWith [.other, .quit]) .other [.quit] 0) :=
  ⟨⟨rfl, .inl ⟨rfl, rfl⟩⟩, ⟨rfl, .inl ⟨rfl, rfl⟩⟩⟩

/-- With nothing listed the next event is a free one, whatever it is. -/
theorem witness_free_event : Supplies (waitsWith []) (Config.hostEvent 0) [] 1 := .inr ⟨rfl, rfl, rfl, rfl⟩

theorem witness_WaitPassesOverOtherEvents :
    AtWkey (waitsWith [.other, .keyDown 10]) ∧ instrAt (waitsWith [.other, .keyDown 10]) = .wkey 4 ∧
    (waitsWith [.other, .keyDown 10]).awaitingKey = true ∧ (waitsWith [.other, .keyDown 10]).started = true ∧
    Supplies (waitsWith [.other, .keyDown 10]) .other [.keyDown 10] 0 ∧
    (waitsWith [.other, .keyDown 10]).events = List.replicate 1 .other ++ .keyDown 10 :: [] ∧
    (waitsWith [.keyDown 10]).events = List.replicate 0 .other ++ .keyDown 10 :: [] :=
  ⟨by decide +kernel, by decide +kernel, rfl, rfl, .inl ⟨rfl, rfl⟩, rfl, rfl⟩

/-- A cycle that completes after STDT, one after STST, one that begins to wait, one in a wait, one that ends in a fault. -/
theorem witness_TimersCountCompletedCycles :
    CycleFrom (State.reset.withFetchWord 16 0xF015) (State.reset.withFetchWord 16 0xF015) ∧
    Fetchable (State.reset.withFetchWord 16 0xF015).pc.toNat ∧
    (instrAt (State.reset.withFetchWord 16 0xF015) = .stdt 0 ∧
      run 0xF015 State.reset (fun t => t.awaitingKey == false && t.runState == .exec) = true) ∧
    (instrAt (State.reset.withFetchWord 16 0xF018) = .stst 0 ∧
      run 0xF018 State.reset (fun t => t.awaitingKey == false && t.runState == .exec) = true) ∧
    run 0xF40A State.reset (fun t => t.awaitingKey) = true ∧
    (AtWkey (waitsWith [.other]) ∧ after (step (waitsWith [.other])) (fun t => t.awaitingKey) = true) ∧
    run 0x00EE State.reset (fun t => decide (Faulted t)) = true :=
  ⟨⟨rfl, .inr (.inl ⟨rfl, rfl, rfl⟩)⟩, by decide +kernel⟩

theorem witness_FontPointsAtTheGlyph :
    (({ State.reset with v := regs [(3, 15)] } : State).reg 3).toNat < 16 := by decide +kernel

/-- A fresh machine with `I` as given. -/
def indexed (w : Word) : State := { State.reset with i := w }

/-- The last three bytes of memory, and one address further. -/
theorem witness_DecimalDigitsAreStored : (indexed 0x0FFD).i.toNat + 2 < Config.memSize ∧ (indexed 0x0FFD).mem.wf = true ∧
    Config.memSize ≤ (indexed 0x0FFE).i.toNat + 2 := by decide

/-- The last sixteen bytes of memory, and one address further. -/
theorem witness_RegistersAreStored : (indexed 0x0FF0).i.toNat + (15 : Reg).val < Config.memSize ∧
    (indexed 0x0FF0).mem.wf = true ∧ Config.memSize ≤ (indexed 0x0FF1).i.toNat + (15 : Reg).val := by decide

theorem witness_RegistersAreLoaded : (indexed 0x0FF0).i.toNat + (15 : Reg).val < Config.memSize ∧
    (15 : Reg) ≤ 15 ∧ Config.memSize ≤ (indexed 0x0FF1).i.toNat + (15 : Reg).val := by decide

theorem witness_LoadAfterStoreRestoresRegisters :
    (indexed 0x0FF0).i.toNat + (15 : Reg).val < Config.memSize ∧
    (indexed 0x0FF0).mem.wf = true := by decide

theorem witness_StoredWordIsFetched :
    (indexed 0x0FF0).i.toNat + (15 : Reg).val < Config.memSize ∧
    (indexed 0x0FF0).mem.wf = true ∧ (14 : Reg).val + 1 < 16 ∧
    (14 : Reg).val + 1 ≤ (15 : Reg).val ∧
    (0x0FFE : Word).toNat = (indexed 0x0FF0).i.toNat + (14 : Reg).val ∧
    (indexed 0x0FFD).i.toNat + 2 < Config.memSize ∧ (0x0FFE : Word).toNat = (indexed 0x0FFD).i.toNat + 1 := by decide

/-- An operation that completes, one that halts, one that waits. -/
theorem witness_PcContract : State.reset.runState = .exec ∧ State.reset.awaitingKey = false ∧
    after (exec (.sei 0 0) State.reset) (fun t => t.runState == .exec && t.awaitingKey == false) = true ∧
    after (exec .ret State.reset) (fun t => t.runState != .exec) = true ∧
    after (exec (.wkey 0) State.reset) (fun t => t.awaitingKey) = true ∧
    after (exec (.wkey 4) (waitsWith [.keyDown 2])) (fun t => t.runState == .exec && t.awaitingKey == false) = true := by
  decide +kernel

theorem witness_RuntimeFaultsArePrecise : State.reset.runState = .exec ∧
    after (exec .ret State.reset) (fun t => decide (Faulted t)) = true := by decide +kernel

theorem witness_OnlyTheNamedInstructionsCanHalt : mayHalt (.jp 0) = false := by decide

/-- An instruction that completes, and one that halts. -/
theorem witness_InstructionsWriteOnlyTheirRow : (∃ t, exec (.stm 15) State.reset = .next t) ∧
    ∃ t, exec .ret State.reset = .next t := by
  obtain ⟨t, e, -⟩ := exists_of_after (r := exec (.stm 15) State.reset) (p := fun _ => true) (by decide +kernel)
  exact ⟨⟨t, e⟩, _, rfl⟩

theorem witness_OutputsNeverFeedBack : ∃ t, exec .cls { State.reset with outputs := [.displayClear] } = .next t :=
  ⟨_, rfl⟩

theorem witness_SoundTimerIsReadByNoInstruction : ∃ t, exec (.lddt 0) { State.reset with st := 0x10 } = .next t :=
  ⟨_, rfl⟩

/-- The invariant holds of the fresh state, and the fresh state steps. -/
theorem witness_StepKeepsTheInvariant : Inv State.reset ∧ ∃ t, step State.reset = .next t := by
  obtain ⟨t, e, -⟩ := exists_of_after (r := step State.reset) (p := fun _ => true) (by decide +kernel)
  exact ⟨⟨rfl, rfl, by decide, by decide, by decide +kernel, by decide⟩, t, e⟩

end Sys2Proof.Tests
end

section
/-! PROOFS. The transfers to an absolute address (40_control_flow.md): what a zero-extended operand is as a number, what
writing `pc` leaves unchanged, and the encoding of a word of format F-NNN. -/

namespace Sys2Proof.Machine

open Sys2Proof.Safety

/-! ## Zero-extended operands (30_encoding.md R40) -/

@[simp] theorem zextAddr_toNat (nnn : Addr) : (zextAddr nnn).toNat = nnn.toNat :=
  BitVec.toNat_setWidth_of_le (by decide)

@[simp] theorem zextByte_toNat (b : Byte) : (zextByte b).toNat = b.toNat :=
  BitVec.toNat_setWidth_of_le (by decide)

/-- `NNN + V[0]` is at most 0x10FE, so the 16-bit sum does not wrap (40_control_flow.md R58). -/
theorem offsetTarget_toNat (s : State) (nnn : Addr) :
    (offsetTarget s nnn).toNat = nnn.toNat + (s.reg 0).toNat := by
  have hn : nnn.toNat < 4096 := nnn.isLt
  have hv : (s.reg 0).toNat < 256 := (s.reg 0).isLt
  have hlt : (zextAddr nnn).toNat + (zextByte (s.reg 0)).toNat < 2 ^ 16 := by
    rw [zextAddr_toNat, zextByte_toNat]; omega
  rw [offsetTarget, BitVec.toNat_add_of_lt hlt, zextAddr_toNat, zextByte_toNat]

/-! ## The frame of a write to `pc` -/

/-- Writing `pc` leaves every other part as it was. -/
theorem State.sameExcept_setPc (s : State) (w : Word) : SameExcept (fun p => p = .pc) s (s.setPc w) := by
  intro p hp
  cases p with
  | pc => exact absurd rfl hp
  | _ => rfl

/-! ## Encoding of format F-NNN (30_encoding.md R41) -/

/-- An instruction whose word is of format F-NNN has its class as match value under the class mask. -/
theorem hasEncoding_of_wordNNN {i : Instr} (c : Nibble) (nnn : Addr)
    (he : encode i = wordNNN c nnn) (hd : decode (wordNNN c nnn) = i) :
    HasEncoding i (wordNNN c 0#12) 0xF000 := by
  rw [HasEncoding, he]
  exact ⟨Laws.TableRow.wordNNN_and c nnn, hd⟩

theorem hasEncoding_jp (nnn : Addr) : HasEncoding (.jp nnn) 0x1000 0xF000 :=
  hasEncoding_of_wordNNN 0x1 nnn rfl (by simp [decode])

theorem hasEncoding_jpv0 (nnn : Addr) : HasEncoding (.jpv0 nnn) 0xB000 0xF000 :=
  hasEncoding_of_wordNNN 0xB nnn rfl (by simp [decode])

/-- Settles O18: each jump is one write to `pc`, of `NNN` itself or of the sum that cannot wrap. -/
theorem jumpsSetPcAbsolutely : Obligations.JumpsSetPcAbsolutely := by
  intro nnn s
  have hjp : exec (.jp nnn) s = .next (s.setPc (zextAddr nnn)) := rfl
  have hjpv0 : exec (.jpv0 nnn) s = .next (s.setPc (offsetTarget s nnn)) := rfl
  exact ⟨⟨_, hjp, zextAddr_toNat nnn, s.sameExcept_setPc _⟩,
    ⟨_, hjpv0, offsetTarget_toNat s nnn, s.sameExcept_setPc _⟩,
    hasEncoding_jp nnn, hasEncoding_jpv0 nnn⟩

end Sys2Proof.Machine
end

section
/-! PROOFS. The skips on an immediate (41_skips.md): how far a skip moves `pc`, what an instruction that ends in a skip
does and leaves unchanged, and the encoding of a word of format F-XNN. -/

namespace Sys2Proof.Machine

open Sys2Proof.Safety

/-! ## What a skip does (41_skips.md R59) -/

/-- A skip adds 4 to `pc` when its condition holds and 2 when not, modulo 65536. -/
theorem State.pcPlus_skipIf (s : State) {c : Bool} {p : Prop} [Decidable p] (hc : c = true ↔ p) :
    PcPlus (if p then 4 else 2) s (s.skipIf c) := by
  rw [PcPlus, State.skipIf_eq, State.setPc_pc]
  by_cases hp : p
  · rw [if_pos (hc.mpr hp), if_pos hp]
    exact BitVec.toNat_add _ _
  · rw [if_neg (mt hc.mp hp), if_neg hp]
    exact BitVec.toNat_add _ _

/-- A skip writes `pc` alone. -/
theorem State.sameExcept_skipIf (s : State) (c : Bool) : SameExcept (fun p => p = .pc) s (s.skipIf c) := by
  rw [State.skipIf_eq]
  exact s.sameExcept_setPc _

/-- An instruction whose meaning is a skip on `c` skips exactly when the condition `p` that `c` decides holds. -/
theorem skips_of_exec_eq {i : Instr} {s : State} {c : Bool} {p : Prop} [Decidable p]
    (he : exec i s = .next (s.skipIf c)) (hc : c = true ↔ p) :
    ∃ t, exec i s = .next t ∧ PcPlus (if p then 4 else 2) s t ∧ SameExcept (fun q => q = .pc) s t :=
  ⟨_, he, s.pcPlus_skipIf hc, s.sameExcept_skipIf c⟩

/-! ## The compared bytes as numbers -/

theorem byte_beq_iff_toNat_eq (a b : Byte) : (a == b) = true ↔ a.toNat = b.toNat :=
  beq_iff_eq.trans BitVec.toNat_inj.symm

theorem byte_bne_iff_toNat_ne (a b : Byte) : (a != b) = true ↔ a.toNat ≠ b.toNat :=
  bne_iff_ne.trans BitVec.toNat_inj.symm.not

/-! ## Encoding of format F-XNN (30_encoding.md R41) -/

/-- An instruction whose word is of format F-XNN has its class as match value under the class mask. -/
theorem hasEncoding_of_wordXNN {i : Instr} (c : Nibble) (x : Reg) (nn : Byte)
    (he : encode i = wordXNN c x nn) (hd : decode (wordXNN c x nn) = i) :
    HasEncoding i (wordXNN c 0 0#8) 0xF000 := by
  rw [HasEncoding, he]
  exact ⟨Laws.TableRow.wordXNN_and c x nn, hd⟩

theorem hasEncoding_sei (x : Reg) (nn : Byte) : HasEncoding (.sei x nn) 0x3000 0xF000 :=
  hasEncoding_of_wordXNN 0x3 x nn rfl (by simp [decode])

theorem hasEncoding_snei (x : Reg) (nn : Byte) : HasEncoding (.snei x nn) 0x4000 0xF000 :=
  hasEncoding_of_wordXNN 0x4 x nn rfl (by simp [decode])

/-- Settles O21: both are a skip on a comparison of two bytes, which is the comparison of their values. -/
theorem skipsOnImmediate : Obligations.SkipsOnImmediate := by
  intro x nn s
  have hsei : exec (.sei x nn) s = .next (s.skipIf (s.reg x == nn)) := rfl
  have hsnei : exec (.snei x nn) s = .next (s.skipIf (s.reg x != nn)) := rfl
  exact ⟨skips_of_exec_eq hsei (byte_beq_iff_toNat_eq _ _), skips_of_exec_eq hsnei (byte_bne_iff_toNat_ne _ _),
    hasEncoding_sei x nn, hasEncoding_snei x nn⟩

end Sys2Proof.Machine
end

section
/-! PROOFS. The immediate loads (42_immediate.md): the frame of a write to a register and to `I`, and what an instruction
that ends by adding 2 to `pc` does and leaves unchanged. -/

namespace Sys2Proof.Machine

open Sys2Proof.Safety

/-! ## The frame of a write to a register and of a write to `I` -/

/-- Writing a register leaves every other register and every other part as it was. -/
theorem State.sameExcept_setReg (s : State) (x : Reg) (b : Byte) :
    SameExcept (fun p => p = .reg x) s (s.setReg x b) := by
  intro p hp
  cases p with
  | reg r =>
    have hr : r ≠ x := fun e => hp (congrArg Part.reg e)
    exact (s.setReg_reg x r b).trans (if_neg hr)
  | _ => rfl

/-- Writing `I` leaves every other part as it was. -/
theorem State.sameExcept_setI (s : State) (w : Word) : SameExcept (fun p => p = .index) s (s.setI w) := by
  intro p hp
  cases p with
  | index => exact absurd rfl hp
  | _ => rfl

/-! ## Ending by adding 2 to `pc` -/

theorem part_same_trans {s t u : State} {p : Part} (hst : p.same s t) (htu : p.same t u) : p.same s u := by
  cases p <;> exact Eq.trans htu hst

/-- Adding 2 to `pc` after writes within `W` adds `pc` to what may differ. -/
theorem sameExcept_advance {W : Part → Prop} {s t : State} (h : SameExcept W s t) :
    SameExcept (fun p => p = .pc ∨ W p) s t.advance := by
  intro p hp
  obtain ⟨hpc, hW⟩ := not_or.mp hp
  exact part_same_trans (h p hW) (t.sameExcept_setPc _ p hpc)

/-- Writes that leave `pc` alone and then `advance` move `pc` by 2, modulo 65536. -/
theorem pcPlus_advance {s t : State} (h : t.pc = s.pc) : PcPlus 2 s t.advance := by
  rw [PcPlus, State.advance_pc, h]
  exact BitVec.toNat_add _ _

/-! ## Encodings (42_immediate.md R65, R67) -/

theorem hasEncoding_ldi (x : Reg) (nn : Byte) : HasEncoding (.ldi x nn) 0x6000 0xF000 :=
  hasEncoding_of_wordXNN 0x6 x nn rfl (by simp [decode])

theorem hasEncoding_lda (nnn : Addr) : HasEncoding (.lda nnn) 0xA000 0xF000 :=
  hasEncoding_of_wordNNN 0xA nnn rfl (by simp [decode])

/-- Settles O23: each load is one write, to a register or to `I`, followed by adding 2 to `pc`. -/
theorem immediateLoads : Obligations.ImmediateLoads := by
  constructor
  · intro x nn s
    have hldi : exec (.ldi x nn) s = .next (s.setReg x nn).advance := rfl
    have hreg : (s.setReg x nn).advance.reg x = nn := by simp
    exact ⟨⟨_, hldi, hreg, pcPlus_advance (s.setReg_pc x nn), sameExcept_advance (s.sameExcept_setReg x nn)⟩,
      hasEncoding_ldi x nn⟩
  · intro nnn s
    have hlda : exec (.lda nnn) s = .next (s.setI (zextAddr nnn)).advance := rfl
    have hi : (s.setI (zextAddr nnn)).advance.i.toNat = nnn.toNat := by simp
    exact ⟨⟨_, hlda, hi, pcPlus_advance (s.setI_pc _), sameExcept_advance (s.sameExcept_setI _)⟩,
      hasEncoding_lda nnn⟩

end Sys2Proof.Machine
end

section
/-! PROOFS. The clearing of the display (44_display.md R81): the frame of a write to the framebuffer and of an emitted
transaction. -/

namespace Sys2Proof.Machine

open Sys2Proof.Safety

/-! ## The frame of a write to the framebuffer and of an emission -/

/-- Replacing the framebuffer leaves every part that is not a cell as it was. -/
theorem State.sameExcept_setFb (s : State) (fb : Framebuffer) :
    SameExcept (fun p => ∃ c, p = .cell c) s (s.setFb fb) := by
  intro p hp
  cases p with
  | cell c => exact absurd ⟨c, rfl⟩ hp
  | _ => rfl

/-- Emitting a transaction leaves every part but the outputs as it was. -/
theorem State.sameExcept_emit (s : State) (o : Output) : SameExcept (fun p => p = .outputs) s (s.emit o) := by
  intro p hp
  cases p with
  | outputs => exact absurd rfl hp
  | _ => rfl

/-- Emitting a transaction after writes within `W` adds the outputs to what may differ. -/
theorem sameExcept_emit_of_sameExcept {W : Part → Prop} {s t : State} (h : SameExcept W s t) (o : Output) :
    SameExcept (fun p => p = .outputs ∨ W p) s (t.emit o) := by
  intro p hp
  obtain ⟨hout, hW⟩ := not_or.mp hp
  exact part_same_trans (h p hW) (t.sameExcept_emit o p hout)

/-- CLS is one fixed word, so its mask covers all sixteen bits (30_encoding.md R42). -/
theorem hasEncoding_cls : HasEncoding .cls 0x00E0 0xFFFF := ⟨by decide, by decide⟩

/-- Settles O31: CLS writes the cleared framebuffer, emits one transaction and adds 2 to `pc`; the flag register is among
the parts the frame keeps. -/
theorem clearEmptiesTheFramebuffer : Obligations.ClearEmptiesTheFramebuffer := by
  refine ⟨fun s => ?_, hasEncoding_cls⟩
  have hcls : exec .cls s = .next ((s.setFb fbClear).emit .displayClear).advance := rfl
  have hpc : ((s.setFb fbClear).emit .displayClear).pc = s.pc := by simp
  have hframe := sameExcept_emit_of_sameExcept (s.sameExcept_setFb fbClear) .displayClear
  exact ⟨_, hcls, fbGet_fbClear, rfl, pcPlus_advance hpc, sameExcept_advance hframe⟩

end Sys2Proof.Machine
end

section
/-! PROOFS. The timer moves (46_timers.md): the timer step as a number, the frame of a write to a timer, and the encoding
of a word of format F-X. -/

namespace Sys2Proof.Machine

open Sys2Proof.Safety

/-! ## The timer step as a number (30_encoding.md R38) -/

theorem byte_sub_one_toNat (b : Byte) : (b - 1#8).toNat = (b.toNat + 255) % 256 := by
  rw [BitVec.toNat_sub, Nat.add_comm]
  rfl

theorem tickTimers_dt_toNat (s : State) : (tickTimers s).dt.toNat = (s.dt.toNat + 255) % 256 :=
  byte_sub_one_toNat s.dt

theorem tickTimers_st_toNat (s : State) : (tickTimers s).st.toNat = (s.st.toNat + 255) % 256 :=
  byte_sub_one_toNat s.st

/-! ## The frame of a write to a timer -/

/-- Setting the delay timer leaves every other part as it was. -/
theorem State.sameExcept_setDt (s : State) (b : Byte) : SameExcept (fun p => p = .delay) s (s.setDt b) := by
  intro p hp
  cases p with
  | delay => exact absurd rfl hp
  | _ => rfl

/-- Setting the sound timer leaves every other part as it was. -/
theorem State.sameExcept_setSt (s : State) (b : Byte) : SameExcept (fun p => p = .sound) s (s.setSt b) := by
  intro p hp
  cases p with
  | sound => exact absurd rfl hp
  | _ => rfl

/-! ## Encoding of format F-X (30_encoding.md R41) -/

/-- An instruction whose word is of format F-X has its class and low byte as match value under the class and low-byte
mask. -/
theorem hasEncoding_of_wordXNN_low {i : Instr} (c : Nibble) (x : Reg) (nn : Byte)
    (he : encode i = wordXNN c x nn) (hd : decode (wordXNN c x nn) = i) :
    HasEncoding i (wordXNN c 0 nn) 0xF0FF := by
  rw [HasEncoding, he]
  exact ⟨Laws.TableRow.wordXNN_and_low c x nn, hd⟩

theorem hasEncoding_lddt (x : Reg) : HasEncoding (.lddt x) 0xF007 0xF0FF :=
  hasEncoding_of_wordXNN_low 0xF x 0x07 rfl (by simp [decode, decodeClassF])

theorem hasEncoding_stdt (x : Reg) : HasEncoding (.stdt x) 0xF015 0xF0FF :=
  hasEncoding_of_wordXNN_low 0xF x 0x15 rfl (by simp [decode, decodeClassF])

theorem hasEncoding_stst (x : Reg) : HasEncoding (.stst x) 0xF018 0xF0FF :=
  hasEncoding_of_wordXNN_low 0xF x 0x18 rfl (by simp [decode, decodeClassF])

/-- Settles O41: each move is one write, to a register or to a timer, followed by adding 2 to `pc`; the timer step then
takes 1 from what that write left in the timer. -/
theorem timerMoves : Obligations.TimerMoves := by
  intro x s
  have hlddt : exec (.lddt x) s = .next (s.setReg x s.dt).advance := rfl
  have hstdt : exec (.stdt x) s = .next (s.setDt (s.reg x)).advance := rfl
  have hstst : exec (.stst x) s = .next (s.setSt (s.reg x)).advance := rfl
  have hreg : (s.setReg x s.dt).advance.reg x = s.dt := by simp
  exact ⟨
    ⟨_, hlddt, hreg, pcPlus_advance (s.setReg_pc x _), tickTimers_dt_toNat _,
      sameExcept_advance (s.sameExcept_setReg x _)⟩,
    ⟨_, hstdt, rfl, pcPlus_advance (s.setDt_pc _), tickTimers_dt_toNat _, sameExcept_advance (s.sameExcept_setDt _)⟩,
    ⟨_, hstst, rfl, pcPlus_advance (s.setSt_pc _), tickTimers_st_toNat _, sameExcept_advance (s.sameExcept_setSt _)⟩,
    hasEncoding_lddt x, hasEncoding_stdt x, hasEncoding_stst x⟩

end Sys2Proof.Machine
end

section
/-! PROOFS. The decoder and the encoder (30_encoding.md R39 to R49): what it means for a row of the opcode table to cover a
word, that the decoder reads a covered word as the row says, and that the encoder undoes the decoder. -/

namespace Sys2Proof

/-! ## A mask compares fields (30_encoding.md R41) -/

/-- The class mask compares the class. -/
theorem and_classMask_eq_iff (w : Word) (c : Nibble) : w &&& 0xF000#16 = wordNNN c 0#12 ↔ classOf w = c := by
  conv_lhs => rw [← wordNNN_fields w, Laws.TableRow.wordNNN_and]
  constructor
  · intro h
    rw [← classOf_wordNNN (classOf w) 0#12, h, classOf_wordNNN]
  · rintro rfl
    rfl

/-- The class and low-nibble mask compares the class and `N`. -/
theorem and_lowNibbleMask_eq_iff (w : Word) (c n : Nibble) :
    w &&& 0xF00F#16 = wordXYN c 0 0 n ↔ classOf w = c ∧ nOf w = n := by
  conv_lhs => rw [← wordXYN_fields w, Laws.TableRow.wordXYN_and_low]
  constructor
  · intro h
    have hc := congrArg classOf h
    have hn := congrArg nOf h
    simp only [classOf_wordXYN, nOf_wordXYN] at hc hn
    exact ⟨hc, hn⟩
  · rintro ⟨rfl, rfl⟩
    rfl

/-- The class and low-byte mask compares the class and `NN`. -/
theorem and_lowByteMask_eq_iff (w : Word) (c : Nibble) (nn : Byte) :
    w &&& 0xF0FF#16 = wordXNN c 0 nn ↔ classOf w = c ∧ nnOf w = nn := by
  conv_lhs => rw [← wordXNN_fields w, Laws.TableRow.wordXNN_and_low]
  constructor
  · intro h
    have hc := congrArg classOf h
    have hn := congrArg nnOf h
    simp only [classOf_wordXNN, nnOf_wordXNN] at hc hn
    exact ⟨hc, hn⟩
  · rintro ⟨rfl, rfl⟩
    rfl

/-! ## What a covering row says of the decoder's reading -/

/-- The decoder reads a word that the row `p.1` covers as `p.2` says, and the row is that instruction's own. -/
def ReadsAsRow (p : OpcodeRow × (Word → Instr)) : Prop :=
  ∀ w, p.1.covers w = true → decode w = p.2 w ∧ Laws.TableRow.rowOf (p.2 w) = some p.1

theorem readsAsRow_of_class (m : String) (c : Nibble) {f : Word → Instr}
    (hd : ∀ w, classOf w = c → decode w = f w := by intro w hc; simp [decode, hc])
    (hr : ∀ w, Laws.TableRow.rowOf (f w) = some ⟨m, wordNNN c 0#12, 0xF000, []⟩ := by intro w; rfl) :
    ReadsAsRow (⟨m, wordNNN c 0#12, 0xF000, []⟩, f) := by
  intro w h
  have hc : classOf w = c := (and_classMask_eq_iff w c).1 (by simpa [OpcodeRow.covers] using h)
  exact ⟨hd w hc, hr w⟩

theorem readsAsRow_of_class_lowNibble (m : String) (c n : Nibble) {f : Word → Instr}
    (hd : ∀ w, classOf w = c → nOf w = n → decode w = f w := by
      intro w hc hn; simp [decode, decodeClass8, decodeLowZero, hc, hn])
    (hr : ∀ w, Laws.TableRow.rowOf (f w) = some ⟨m, wordXYN c 0 0 n, 0xF00F, []⟩ := by intro w; rfl) :
    ReadsAsRow (⟨m, wordXYN c 0 0 n, 0xF00F, []⟩, f) := by
  intro w h
  obtain ⟨hc, hn⟩ := (and_lowNibbleMask_eq_iff w c n).1 (by simpa [OpcodeRow.covers] using h)
  exact ⟨hd w hc hn, hr w⟩

theorem readsAsRow_of_class_lowByte (m : String) (c : Nibble) (nn : Byte) {f : Word → Instr}
    (hd : ∀ w, classOf w = c → nnOf w = nn → decode w = f w := by
      intro w hc hn; simp [decode, decodeClassE, decodeClassF, hc, hn])
    (hr : ∀ w, Laws.TableRow.rowOf (f w) = some ⟨m, wordXNN c 0 nn, 0xF0FF, []⟩ := by intro w; rfl) :
    ReadsAsRow (⟨m, wordXNN c 0 nn, 0xF0FF, []⟩, f) := by
  intro w h
  obtain ⟨hc, hn⟩ := (and_lowByteMask_eq_iff w c nn).1 (by simpa [OpcodeRow.covers] using h)
  exact ⟨hd w hc hn, hr w⟩

/-- A row whose mask is the full word and which has no exceptions covers one word. -/
theorem readsAsRow_of_fullWord (m : String) (v : Word) {f : Word → Instr} (hd : decode v = f v)
    (hr : Laws.TableRow.rowOf (f v) = some ⟨m, v, 0xFFFF, []⟩) : ReadsAsRow (⟨m, v, 0xFFFF, []⟩, f) := by
  intro w h
  have hand : w &&& 0xFFFF#16 = w := BitVec.and_allOnes
  obtain rfl : w = v := hand.symm.trans (by simpa [OpcodeRow.covers] using h)
  exact ⟨hd, hr⟩

/-- SYS takes the words of class 0 but the two that CLS and RET take (R42). -/
theorem readsAsRow_sys :
    ReadsAsRow (⟨"SYS", 0x0000, 0xF000, [0x00E0, 0x00EE]⟩, fun w => .sys (nnnOf w)) := by
  intro w h
  obtain ⟨hand, hcls, hret⟩ : w &&& 0xF000#16 = 0x0000#16 ∧ ¬ w = 0x00E0#16 ∧ ¬ w = 0x00EE#16 := by
    simpa [OpcodeRow.covers] using h
  have hc : classOf w = 0#4 := (and_classMask_eq_iff w 0).1 hand
  exact ⟨by simp [decode, decodeClass0, hc, hcls, hret], rfl⟩

/-- Every row of the opcode table, with what it builds, says how the decoder reads the words it covers (R41). -/
theorem readsAsRow_of_mem : ∀ p ∈ opcodeRows.zip rowReadings, ReadsAsRow p := by
  simp only [opcodeRows, opcodeRowsLow, opcodeRowsAlu, opcodeRowsHigh, opcodeRowsF, rowReadings, List.cons_append,
    List.nil_append, List.zip_cons_cons, List.zip_nil_right, List.forall_mem_cons]
  exact ⟨
    readsAsRow_of_fullWord "CLS" 0x00E0 (by decide) rfl, readsAsRow_of_fullWord "RET" 0x00EE (by decide) rfl,
    readsAsRow_sys, readsAsRow_of_class "JP" 0x1, readsAsRow_of_class "CALL" 0x2, readsAsRow_of_class "SEI" 0x3,
    readsAsRow_of_class "SNEI" 0x4, readsAsRow_of_class_lowNibble "SER" 0x5 0x0, readsAsRow_of_class "LDI" 0x6,
    readsAsRow_of_class "ADDI" 0x7, readsAsRow_of_class_lowNibble "LDX" 0x8 0x0,
    readsAsRow_of_class_lowNibble "ORX" 0x8 0x1, readsAsRow_of_class_lowNibble "ANX" 0x8 0x2,
    readsAsRow_of_class_lowNibble "XOR" 0x8 0x3, readsAsRow_of_class_lowNibble "ADC" 0x8 0x4,
    readsAsRow_of_class_lowNibble "SUB" 0x8 0x5, readsAsRow_of_class_lowNibble "SRH" 0x8 0x6,
    readsAsRow_of_class_lowNibble "SUBN" 0x8 0x7, readsAsRow_of_class_lowNibble "SHL" 0x8 0xE,
    readsAsRow_of_class_lowNibble "SNER" 0x9 0x0, readsAsRow_of_class "LDA" 0xA, readsAsRow_of_class "JPV0" 0xB,
    readsAsRow_of_class "RND" 0xC, readsAsRow_of_class "DRW" 0xD, readsAsRow_of_class_lowByte "SKP" 0xE 0x9E,
    readsAsRow_of_class_lowByte "SKNP" 0xE 0xA1, readsAsRow_of_class_lowByte "LDDT" 0xF 0x07,
    readsAsRow_of_class_lowByte "WKEY" 0xF 0x0A, readsAsRow_of_class_lowByte "STDT" 0xF 0x15,
    readsAsRow_of_class_lowByte "STST" 0xF 0x18, readsAsRow_of_class_lowByte "ADDA" 0xF 0x1E,
    readsAsRow_of_class_lowByte "FONT" 0xF 0x29, readsAsRow_of_class_lowByte "BCD" 0xF 0x33,
    readsAsRow_of_class_lowByte "STM" 0xF 0x55, readsAsRow_of_class_lowByte "LDM" 0xF 0x65,
    List.forall_mem_nil _⟩

/-- Every row of the table has its reading beside it. -/
theorem exists_reading_of_mem {r : OpcodeRow} (hr : r ∈ opcodeRows) : ∃ f, (r, f) ∈ opcodeRows.zip rowReadings := by
  obtain ⟨k, hk, rfl⟩ := List.getElem_of_mem hr
  have hlen : opcodeRows.length = rowReadings.length := rfl
  refine ⟨rowReadings[k]'(hlen ▸ hk), ?_⟩
  rw [← List.getElem_zip (h := by simpa [← hlen] using hk)]
  exact List.getElem_mem _

/-- The row that covers a word is the row of the decoder's reading. -/
theorem rowOf_decode_of_covers {w : Word} {r : OpcodeRow} (hr : r ∈ opcodeRows) (h : r.covers w = true) :
    Laws.TableRow.rowOf (decode w) = some r := by
  obtain ⟨f, hmem⟩ := exists_reading_of_mem hr
  obtain ⟨hd, hrow⟩ := readsAsRow_of_mem _ hmem w h
  rw [hd, hrow]

/-- Settles O5: a row that covers a word is the row of the one instruction the decoder reads there. -/
theorem opcodeRowsAreDisjoint : Obligations.OpcodeRowsAreDisjoint := by
  intro w r q hr hq hrw hqw
  exact Option.some.inj ((rowOf_decode_of_covers hr hrw).symm.trans (rowOf_decode_of_covers hq hqw))

/-! ## The encoder undoes the decoder (R41, R47) -/

theorem wordNNN_of_class {w : Word} {c : Nibble} (hc : classOf w = c) : wordNNN c (nnnOf w) = w :=
  hc ▸ wordNNN_fields w

theorem wordXNN_of_class {w : Word} {c : Nibble} (hc : classOf w = c) : wordXNN c (xOf w) (nnOf w) = w :=
  hc ▸ wordXNN_fields w

theorem wordXNN_of_class_lowByte {w : Word} {c : Nibble} {nn : Byte} (hc : classOf w = c) (hn : nnOf w = nn) :
    wordXNN c (xOf w) nn = w :=
  hn ▸ wordXNN_of_class hc

theorem wordXYN_of_class {w : Word} {c : Nibble} (hc : classOf w = c) : wordXYN c (xOf w) (yOf w) (nOf w) = w :=
  hc ▸ wordXYN_fields w

theorem wordXYN_of_class_lowNibble {w : Word} {c n : Nibble} (hc : classOf w = c) (hn : nOf w = n) :
    wordXYN c (xOf w) (yOf w) n = w :=
  hn ▸ wordXYN_of_class hc

/-- A branch of the decoder is undone when each of its ways is. -/
theorem encode_ite_eq {p : Prop} [Decidable p] {i j : Instr} {w : Word} (hi : p → encode i = w)
    (hj : ¬ p → encode j = w) : encode (if p then i else j) = w := by
  split
  · exact hi ‹_›
  · exact hj ‹_›

theorem encode_decodeClass0 {w : Word} (hc : classOf w = 0x0#4) : encode (decodeClass0 w) = w :=
  encode_ite_eq Eq.symm fun _ => encode_ite_eq Eq.symm fun _ => wordNNN_of_class hc

theorem encode_decodeLowZero {w : Word} {c : Nibble} {i : Instr} (hc : classOf w = c)
    (hi : encode i = wordXYN c (xOf w) (yOf w) 0x0#4) : encode (decodeLowZero w i) = w :=
  encode_ite_eq (fun hn => hi.trans (wordXYN_of_class_lowNibble hc hn)) fun _ => rfl

theorem encode_decodeClass8 {w : Word} (hc : classOf w = 0x8#4) : encode (decodeClass8 w) = w := by
  iterate 9 refine encode_ite_eq (wordXYN_of_class_lowNibble hc) fun _ => ?_
  rfl

theorem encode_decodeClassE {w : Word} (hc : classOf w = 0xE#4) : encode (decodeClassE w) = w := by
  iterate 2 refine encode_ite_eq (wordXNN_of_class_lowByte hc) fun _ => ?_
  rfl

theorem encode_decodeClassF {w : Word} (hc : classOf w = 0xF#4) : encode (decodeClassF w) = w := by
  iterate 9 refine encode_ite_eq (wordXNN_of_class_lowByte hc) fun _ => ?_
  rfl

theorem encode_decode (w : Word) : encode (decode w) = w := by
  refine encode_ite_eq encode_decodeClass0 fun h0 => ?_
  refine encode_ite_eq wordNNN_of_class fun h1 => ?_
  refine encode_ite_eq wordNNN_of_class fun h2 => ?_
  refine encode_ite_eq wordXNN_of_class fun h3 => ?_
  refine encode_ite_eq wordXNN_of_class fun h4 => ?_
  refine encode_ite_eq (fun h => encode_decodeLowZero h rfl) fun h5 => ?_
  refine encode_ite_eq wordXNN_of_class fun h6 => ?_
  refine encode_ite_eq wordXNN_of_class fun h7 => ?_
  refine encode_ite_eq encode_decodeClass8 fun h8 => ?_
  refine encode_ite_eq (fun h => encode_decodeLowZero h rfl) fun h9 => ?_
  refine encode_ite_eq wordNNN_of_class fun hA => ?_
  refine encode_ite_eq wordNNN_of_class fun hB => ?_
  refine encode_ite_eq wordXNN_of_class fun hC => ?_
  refine encode_ite_eq wordXYN_of_class fun hD => ?_
  refine encode_ite_eq encode_decodeClassE fun hE => ?_
  exact encode_decodeClassF (by bv_omega)

/-- `opcode_none` carries the decoded word (R47). -/
theorem eq_of_decode_eq_opcodeNone {w u : Word} (h : decode w = .opcodeNone u) : u = w := by
  rw [← encode_decode w, h, encode]

/-- A word read as `opcode_none` is covered by no row (R47). -/
theorem recognized_of_decode_eq_opcodeNone {w u : Word} (h : decode w = .opcodeNone u) : recognized w = false := by
  rw [recognized, List.any_eq_false]
  intro r hr hcov
  have hrow := rowOf_decode_of_covers hr hcov
  rw [h] at hrow
  cases hrow

theorem wellFormed_decode (w : Word) : (decode w).wellFormed = true := by
  cases h : decode w with
  | sys nnn =>
    have hw : wordNNN 0x0#4 nnn = w := by rw [← encode_decode w, h, encode]
    have hcls : nnn ≠ 0x0E0#12 := by
      rintro rfl
      subst hw
      exact absurd h (by decide)
    have hret : nnn ≠ 0x0EE#12 := by
      rintro rfl
      subst hw
      exact absurd h (by decide)
    simp [Instr.wellFormed, hcls, hret]
  | opcodeNone u =>
    obtain rfl := eq_of_decode_eq_opcodeNone h
    simp [Instr.wellFormed, recognized_of_decode_eq_opcodeNone h]
  | _ => rfl

/-- Settles O3: the fields a branch of the decoder takes, with the ones it tests, are the whole word. -/
theorem encodeOfDecodeIsTheWord : Obligations.EncodeOfDecodeIsTheWord :=
  fun w => ⟨wellFormed_decode w, encode_decode w⟩

/-! ## The decoder undoes the encoder (R41, R47) -/

theorem tableRow_statement (i : Instr) : Laws.TableRow.Statement i := by
  cases i with
  | cls => exact Laws.TableRow.cls
  | ret => exact Laws.TableRow.ret
  | sys nnn => exact Laws.TableRow.sys nnn
  | jp nnn => exact Laws.TableRow.jp nnn
  | call nnn => exact Laws.TableRow.call nnn
  | sei x nn => exact Laws.TableRow.sei x nn
  | snei x nn => exact Laws.TableRow.snei x nn
  | ser x y => exact Laws.TableRow.ser x y
  | ldi x nn => exact Laws.TableRow.ldi x nn
  | addi x nn => exact Laws.TableRow.addi x nn
  | ldx x y => exact Laws.TableRow.ldx x y
  | orx x y => exact Laws.TableRow.orx x y
  | anx x y => exact Laws.TableRow.anx x y
  | xor x y => exact Laws.TableRow.xor x y
  | adc x y => exact Laws.TableRow.adc x y
  | sub x y => exact Laws.TableRow.sub x y
  | srh x y => exact Laws.TableRow.srh x y
  | subn x y => exact Laws.TableRow.subn x y
  | shl x y => exact Laws.TableRow.shl x y
  | sner x y => exact Laws.TableRow.sner x y
  | lda nnn => exact Laws.TableRow.lda nnn
  | jpv0 nnn => exact Laws.TableRow.jpv0 nnn
  | rnd x nn => exact Laws.TableRow.rnd x nn
  | drw x y n => exact Laws.TableRow.drw x y n
  | skp x => exact Laws.TableRow.skp x
  | sknp x => exact Laws.TableRow.sknp x
  | lddt x => exact Laws.TableRow.lddt x
  | wkey x => exact Laws.TableRow.wkey x
  | stdt x => exact Laws.TableRow.stdt x
  | stst x => exact Laws.TableRow.stst x
  | adda x => exact Laws.TableRow.adda x
  | font x => exact Laws.TableRow.font x
  | bcd x => exact Laws.TableRow.bcd x
  | stm x => exact Laws.TableRow.stm x
  | ldm x => exact Laws.TableRow.ldm x
  | opcodeNone w => exact Laws.TableRow.opcodeNone w

/-- A word that no row covers is read as `opcode_none` (R47): any other reading has a row that covers its word. -/
theorem decode_of_recognized_eq_false {w : Word} (h : recognized w = false) : decode w = .opcodeNone w := by
  have hrow := tableRow_statement (decode w) (wellFormed_decode w)
  rw [encode_decode] at hrow
  cases hr : Laws.TableRow.rowOf (decode w) with
  | some r =>
    rw [hr] at hrow
    obtain ⟨hmem, hcov⟩ := hrow
    exact absurd hcov (List.any_eq_false.1 h r hmem)
  | none =>
    cases hd : decode w with
    | opcodeNone u => rw [eq_of_decode_eq_opcodeNone hd]
    | _ => rw [hd] at hr; cases hr

/-- Settles O4: the first row of the table that covers a word reads it as the decoder does, and where none covers it both
answer `opcode_none`. -/
theorem decodeAgreesWithMatchMaskTable : Obligations.DecodeAgreesWithMatchMaskTable := by
  intro w
  unfold tableDecode
  split
  · rename_i p hp
    have hcov : p.1.covers w = true := List.find?_some (p := fun r : OpcodeRow × (Word → Instr) => r.1.covers w) hp
    exact (readsAsRow_of_mem p (List.mem_of_find?_eq_some hp) w hcov).1
  · rename_i hnone
    refine decode_of_recognized_eq_false (List.any_eq_false.2 fun r hr => ?_)
    obtain ⟨f, hmem⟩ := exists_reading_of_mem hr
    exact List.find?_eq_none.1 hnone _ hmem

theorem wordNNN_injective (c : Nibble) : Function.Injective (wordNNN c) :=
  Function.LeftInverse.injective (g := nnnOf) (nnnOf_wordNNN c)

/-- Settles O2: each constructor's word has the class, low nibble or low byte the decoder tests for it, and its operands
stand in the fields the decoder takes them from. -/
theorem decodeOfEncodeIsTheInstruction : Obligations.DecodeOfEncodeIsTheInstruction := by
  intro i hi
  cases i with
  | cls => rfl
  | ret => rfl
  | sys nnn =>
    simp only [Instr.wellFormed, Bool.and_eq_true, bne_iff_ne, ne_eq] at hi
    have hcls : wordNNN 0x0#4 nnn ≠ 0x00E0#16 := (wordNNN_injective 0x0#4).ne hi.1
    have hret : wordNNN 0x0#4 nnn ≠ 0x00EE#16 := (wordNNN_injective 0x0#4).ne hi.2
    have hclass : classOf (wordNNN 0x0#4 nnn) = 0x0#4 := classOf_wordNNN _ _
    rw [encode, decode, if_pos hclass, decodeClass0, if_neg hcls, if_neg hret, nnnOf_wordNNN]
  | opcodeNone w => exact decode_of_recognized_eq_false (w := w) (by simpa [Instr.wellFormed] using hi)
  | _ => simp [encode, decode, decodeLowZero, decodeClass8, decodeClassE, decodeClassF]

/-! ## The unrecognized words (R47) -/

/-- The reading of an unrecognized word. -/
def Instr.isNone : Instr → Prop
  | .opcodeNone _ => True
  | _ => False

theorem Instr.isNone_iff (i : Instr) : i.isNone ↔ ∃ u, i = .opcodeNone u := by
  cases i <;> simp [Instr.isNone]

theorem isNone_ite_iff {p : Prop} [Decidable p] {i j : Instr} :
    (if p then i else j).isNone ↔ (p ∧ i.isNone) ∨ (¬ p ∧ j.isNone) := by
  split <;> simp [*]

theorem not_isNone_decodeClass0 (w : Word) : ¬ (decodeClass0 w).isNone := by
  simp only [decodeClass0, isNone_ite_iff]
  simp [Instr.isNone]

theorem isNone_decodeLowZero_iff {w : Word} {i : Instr} (hi : ¬ i.isNone) :
    (decodeLowZero w i).isNone ↔ (nOf w).toNat ≠ 0 := by
  simp only [decodeLowZero, isNone_ite_iff, hi]
  simp only [Instr.isNone, and_false, false_or, and_true]
  bv_omega

theorem isNone_decodeClass8_iff (w : Word) :
    (decodeClass8 w).isNone ↔ (8 ≤ (nOf w).toNat ∧ (nOf w).toNat ≤ 13) ∨ (nOf w).toNat = 15 := by
  simp only [decodeClass8, isNone_ite_iff]
  simp only [Instr.isNone, and_false, false_or, and_true]
  bv_omega

theorem isNone_decodeClassE_iff (w : Word) : (decodeClassE w).isNone ↔ (nnOf w).toNat ∉ [0x9E, 0xA1] := by
  simp only [decodeClassE, isNone_ite_iff, List.mem_cons, List.not_mem_nil, or_false]
  simp only [Instr.isNone, and_false, false_or, and_true]
  bv_omega

theorem isNone_decodeClassF_iff (w : Word) :
    (decodeClassF w).isNone ↔ (nnOf w).toNat ∉ [0x07, 0x0A, 0x15, 0x18, 0x1E, 0x29, 0x33, 0x55, 0x65] := by
  simp only [decodeClassF, isNone_ite_iff, List.mem_cons, List.not_mem_nil, or_false]
  simp only [Instr.isNone, and_false, false_or, and_true]
  bv_omega

/-- What holds of each way of a branch of the decoder holds of the branch. -/
theorem isNone_ite_iff_of {p r : Prop} [Decidable p] {i j : Instr} (hi : p → (i.isNone ↔ r))
    (hj : ¬ p → (j.isNone ↔ r)) : (if p then i else j).isNone ↔ r := by
  split
  · exact hi ‹_›
  · exact hj ‹_›

/-- Settles O6: only classes 5, 8, 9, E and F have ways to `opcode_none`, each by a test of its own on the low nibble or
the low byte; and the encoder, which undoes the decoder, gives back the word `opcode_none` carries. -/
theorem unrecognizedWordsAreTheListedOnes : Obligations.UnrecognizedWordsAreTheListedOnes := by
  refine fun w => ⟨?_, fun u => eq_of_decode_eq_opcodeNone⟩
  rw [← Instr.isNone_iff]
  refine isNone_ite_iff_of (fun h => by simp [h, not_isNone_decodeClass0]) fun h0 => ?_
  iterate 4 refine isNone_ite_iff_of (fun h => by simp [h, Instr.isNone]) fun _ => ?_
  refine isNone_ite_iff_of (fun h => by simp [h, isNone_decodeLowZero_iff (i := .ser _ _) id]) fun h5 => ?_
  iterate 2 refine isNone_ite_iff_of (fun h => by simp [h, Instr.isNone]) fun _ => ?_
  refine isNone_ite_iff_of (fun h => by simp [h, isNone_decodeClass8_iff]) fun h8 => ?_
  refine isNone_ite_iff_of (fun h => by simp [h, isNone_decodeLowZero_iff (i := .sner _ _) id]) fun h9 => ?_
  iterate 4 refine isNone_ite_iff_of (fun h => by simp [h, Instr.isNone]) fun _ => ?_
  refine isNone_ite_iff_of (fun h => by simp [h, isNone_decodeClassE_iff]) fun hE => ?_
  have hF : classOf w = 0xF#4 := by bv_omega
  simp [hF, isNone_decodeClassF_iff]

/-- Settles O1: the decoder computes each of the twenty readings. -/
theorem sampleWordsDecodeAsListed : Obligations.SampleWordsDecodeAsListed := by
  unfold Obligations.SampleWordsDecodeAsListed
  decide

end Sys2Proof
end

section
/-! PROOFS. What execute can answer, said once for all 36 operations: it goes on within the operation's row of the access
table and with `pc` set in the operation's way, or it enters HALT in one of three ways (60_exceptions.md R99, 10_state.md
R22, 30_encoding.md R50). -/

namespace Sys2Proof.Machine

open Sys2Proof.Safety

/-! ## Frames compose -/

theorem sameExcept_mono {W W' : Part → Prop} {s t : State} (h : SameExcept W s t) (hw : ∀ p, W p → W' p) :
    SameExcept W' s t :=
  fun p hp => h p (mt (hw p) hp)

theorem sameExcept_trans {W W' : Part → Prop} {s t u : State} (h : SameExcept W s t) (h' : SameExcept W' t u) :
    SameExcept (fun p => W p ∨ W' p) s u := by
  intro p hp
  obtain ⟨hW, hW'⟩ := not_or.mp hp
  exact part_same_trans (h p hW) (h' p hW')

/-! ## The frame of each remaining operation of the state -/

theorem State.sameExcept_setResultFlag (s : State) (x : Reg) (r : Byte) (f : Bool) :
    SameExcept (fun p => p = .reg x ∨ p = .reg vf) s (s.setResultFlag x r f) :=
  sameExcept_trans (s.sameExcept_setReg x r) (State.sameExcept_setReg _ vf _)

theorem State.sameExcept_draw (s : State) : SameExcept (fun p => p = .draws) s s.draw.2 := by
  intro p hp
  cases p with
  | draws => exact absurd rfl hp
  | _ => rfl

theorem State.sameExcept_releaseKey (s : State) (k : Key) : SameExcept (fun p => p = .key k) s (s.releaseKey k) := by
  intro p hp
  cases p with
  | key j =>
    have hj : j ≠ k := fun e => hp (congrArg Part.key e)
    simp [Part.same, hj]
  | _ => rfl

theorem State.sameExcept_pressKey (s : State) (k : Key) : SameExcept (fun p => ∃ j, p = .key j) s (s.pressKey k) := by
  intro p hp
  cases p with
  | key j => exact absurd ⟨j, rfl⟩ hp
  | _ => rfl

theorem State.sameExcept_setAwaiting (s : State) (b : Bool) :
    SameExcept (fun p => p = .awaitingKey) s (s.setAwaiting b) := by
  intro p hp
  cases p with
  | awaitingKey => exact absurd rfl hp
  | _ => rfl

theorem State.sameExcept_nextEvent (s : State) :
    SameExcept (fun p => p = .events ∨ p = .freeEvents) s s.nextEvent.2 := by
  intro p hp
  rcases s.nextEvent_cases with ⟨e, es, -, h⟩ | ⟨-, h⟩
  · rw [h]
    cases p with
    | events => exact absurd (.inl rfl) hp
    | _ => rfl
  · rw [h]
    cases p with
    | freeEvents => exact absurd (.inr rfl) hp
    | _ => rfl

/-- Entering HALT writes the three parts of a halt alone (60_exceptions.md R101). -/
theorem State.sameExcept_haltWith (s : State) (c : HaltCause) : SameExcept haltPart s (s.haltWith c) := by
  intro p hp
  cases p with
  | runState => exact absurd (.inl rfl) hp
  | haltCause => exact absurd (.inr (.inl rfl)) hp
  | outputs => exact absurd (.inr (.inr rfl)) hp
  | _ => rfl

/-- Storing bytes leaves every byte outside them and every other part as it was. -/
theorem State.sameExcept_store (s : State) (a : Nat) (bs : List Byte) :
    SameExcept (fun p => ∃ k, k < bs.length ∧ p = .byte (a + k)) s { s with mem := s.mem.writeList a bs } := by
  intro p hp
  cases p with
  | byte c =>
    refine Memory.read_writeList_outside ?_
    by_contra hc
    exact hp ⟨c - a, by omega, congrArg Part.byte (by omega)⟩
  | _ => rfl

/-- Loading registers from `V[0]` up leaves the others and every other part as they were. -/
theorem State.sameExcept_loadRegs (s : State) (bs : List Byte) :
    SameExcept (fun p => ∃ r : Reg, r.val < bs.length ∧ p = .reg r) s { s with v := loadRegs s.v 0 bs } := by
  intro p hp
  cases p with
  | reg r => exact (get_loadRegs bs s.v 0 r).trans (dif_neg fun h => hp ⟨r, h.2, rfl⟩)
  | _ => rfl

/-- Writing a stack entry and `sp` leaves the other entries and every other part as they were. -/
theorem State.sameExcept_pushed (s : State) (w : Word) (h : s.sp.val < 16) (n : Fin 17) :
    SameExcept (fun p => p = .sp ∨ ∃ k : Fin 16, k.val = s.sp.val ∧ p = .stackEntry k) s
      { s with stack := s.stack.set s.sp.val w h, sp := n } := by
  intro p hp
  cases p with
  | sp => exact absurd (.inl rfl) hp
  | stackEntry k =>
    have hk : s.sp.val ≠ k.val := fun e => hp (.inr ⟨k, e.symm, rfl⟩)
    simp only [Part.same, Vector.get_eq_getElem, Vector.getElem_set, if_neg hk]
  | _ => rfl

theorem State.sameExcept_setSp (s : State) (n : Fin 17) : SameExcept (fun p => p = .sp) s { s with sp := n } := by
  intro p hp
  cases p with
  | sp => exact absurd rfl hp
  | _ => rfl

/-- Raising a fault takes it: HALT, the cause, one report, nothing else (60_exceptions.md R101). -/
theorem State.takesFault_haltWith (s : State) (f : Fault) : TakesFault f s (s.haltWith (.runtime f)) :=
  ⟨rfl, rfl, rfl, s.sameExcept_haltWith _⟩

/-! ## Going on -/

/-- Memory is as it was, or bytes were stored from `I` up, all at addresses that exist. -/
def Stores (s t : State) : Prop :=
  t.mem = s.mem ∨ ∃ bs : List Byte, s.i.toNat + bs.length ≤ Config.memSize ∧ t.mem = s.mem.writeList s.i.toNat bs

/-- What execute leaves when it does not enter HALT. -/
structure GoesOn (i : Instr) (s t : State) : Prop where
  frame : SameExcept (mayWrite i s) s t
  stores : Stores s t
  pc : t.awaitingKey = false → t.pc.toNat = (pcWay i s).apply s.pc.toNat

/-- An operation that writes within `W` and then adds 2 to `pc`. -/
theorem goesOn_advance {i : Instr} {s u : State} {W : Part → Prop} (hf : SameExcept W s u) (hm : Stores s u)
    (hpc : u.pc = s.pc) (hw : ∀ p, p = .pc ∨ W p → mayWrite i s p := by exact fun _ => id)
    (hway : pcWay i s = .plusTwo := by rfl) : GoesOn i s u.advance where
  frame := sameExcept_mono (sameExcept_advance hf) hw
  stores := hm
  pc _ := by rw [hway, pcPlus_advance hpc]; rfl

/-- A skip on `c`, the condition of the operation. -/
theorem goesOn_skipIf {i : Instr} {s : State} {c : Bool} {p : Prop} [Decidable p] (hc : c = true ↔ p)
    (hw : ∀ q, q = .pc → mayWrite i s q := by exact fun _ => id)
    (hway : pcWay i s = .skipWhen (decide p) := by rfl) : GoesOn i s (s.skipIf c) where
  frame := sameExcept_mono (s.sameExcept_skipIf c) hw
  stores := by rw [State.skipIf_eq]; exact .inl rfl
  pc _ := by
    rw [hway, PcWay.apply, s.pcPlus_skipIf hc]
    split <;> simp_all

/-- A jump to the target of the operation. -/
theorem goesOn_setPc {i : Instr} {s : State} {w : Word} (hway : pcWay i s = .absolute w.toNat)
    (hw : ∀ q, q = .pc → mayWrite i s q := by exact fun _ => id) : GoesOn i s (s.setPc w) where
  frame := sameExcept_mono (s.sameExcept_setPc w) hw
  stores := .inl rfl
  pc _ := by rw [hway]; rfl

/-! ## What the operations that can fault or wait leave when they go on -/

theorem getD_toList_eq_getElem {α : Type} {n : Nat} (v : Vector α n) (k : Nat) (d : α) (h : k < n) :
    v.toList.getD k d = v[k] := by
  rw [List.getD_eq_getElem _ _ (by simpa using h), Vector.getElem_toList]

theorem goesOn_ret (s : State) (h : 0 < s.sp.val) :
    GoesOn .ret s { s with sp := ⟨s.sp.val - 1, by have := s.sp.isLt; omega⟩,
                           pc := s.stack[s.sp.val - 1]'(by have := s.sp.isLt; omega) + 2#16 } where
  frame := sameExcept_mono (sameExcept_trans (s.sameExcept_setSp ⟨s.sp.val - 1, by have := s.sp.isLt; omega⟩)
    (State.sameExcept_setPc _ _)) fun _ => Or.symm
  stores := .inl rfl
  pc _ := by
    have hk : s.sp.val - 1 < 16 := by have := s.sp.isLt; omega
    rw [pcWay, getD_toList_eq_getElem _ _ _ hk]
    exact BitVec.toNat_add _ _

theorem goesOn_call (nnn : Addr) (s : State) (h : s.sp.val < 16) :
    GoesOn (.call nnn) s { s with stack := s.stack.set s.sp.val s.pc h, sp := ⟨s.sp.val + 1, by omega⟩,
                                  pc := zextAddr nnn } where
  frame := sameExcept_mono (sameExcept_trans (s.sameExcept_pushed s.pc h _) (State.sameExcept_setPc _ _))
    fun _ => Or.symm
  stores := .inl rfl
  pc _ := zextAddr_toNat nnn

theorem key_getD (s : State) (k : Nat) (h : k < 16) : s.key.toList.getD k false = s.keyDown ⟨k, h⟩ :=
  getD_toList_eq_getElem _ _ _ h

theorem goesOn_skp (x : Reg) (s : State) (h : (s.reg x).toNat < 16) :
    GoesOn (.skp x) s
      (if s.keyDown ⟨(s.reg x).toNat, h⟩ then (s.releaseKey ⟨(s.reg x).toNat, h⟩).skipIf true else s.skipIf false) := by
  have hway : pcWay (.skp x) s = .skipWhen (s.keyDown ⟨(s.reg x).toNat, h⟩) := by rw [pcWay, key_getD s _ h]
  cases hk : s.keyDown ⟨(s.reg x).toNat, h⟩ with
  | true =>
    refine ⟨?_, .inl rfl, fun _ => ?_⟩
    · refine sameExcept_mono (sameExcept_trans (s.sameExcept_releaseKey ⟨(s.reg x).toNat, h⟩)
        (State.sameExcept_skipIf _ true)) ?_
      rintro p (rfl | rfl)
      · exact .inr ⟨_, rfl, rfl⟩
      · exact .inl rfl
    · rw [hway, hk]
      exact BitVec.toNat_add _ _
  | false =>
    refine ⟨sameExcept_mono (s.sameExcept_skipIf false) fun _ => .inl, .inl rfl, fun _ => ?_⟩
    rw [hway, hk]
    exact BitVec.toNat_add _ _

theorem goesOn_bcd (x : Reg) (s : State) (h : s.i.toNat + 2 < Config.memSize) :
    GoesOn (.bcd x) s { s.advance with mem := s.mem.writeList s.i.toNat (decimalDigits (s.reg x)) } :=
  goesOn_advance (s.sameExcept_store s.i.toNat (decimalDigits (s.reg x))) (.inr ⟨decimalDigits (s.reg x), h, rfl⟩) rfl

theorem goesOn_stm (x : Reg) (s : State) (h : s.i.toNat + x.val < Config.memSize) :
    GoesOn (.stm x) s { s.advance with mem := s.mem.writeList s.i.toNat (regsUpTo s x) } := by
  refine goesOn_advance (s.sameExcept_store s.i.toNat (regsUpTo s x)) (.inr ⟨regsUpTo s x, ?_, rfl⟩) rfl ?_
  · rw [length_regsUpTo]
    exact h
  · rintro p (hp | ⟨k, hk, hp⟩)
    · exact .inl hp
    · rw [length_regsUpTo] at hk
      exact .inr ⟨k, Nat.le_of_lt_succ hk, hp⟩

theorem goesOn_ldm (x : Reg) (s : State) :
    GoesOn (.ldm x) s { s.advance with v := loadRegs s.v 0 (s.mem.readList s.i.toNat (x.val + 1)) } := by
  refine goesOn_advance (s.sameExcept_loadRegs (s.mem.readList s.i.toNat (x.val + 1))) (.inl rfl) rfl ?_
  rintro p (hp | ⟨r, hr, hp⟩)
  · exact .inl hp
  · rw [Memory.length_readList] at hr
    exact .inr ⟨r, Nat.le_of_lt_succ hr, hp⟩

theorem goesOn_drw (x y : Reg) (n : Nibble) (s : State) (fb : Framebuffer) (hit : Bool) :
    GoesOn (.drw x y n) s (s.drawn fb hit) := by
  refine goesOn_advance (sameExcept_emit_of_sameExcept (sameExcept_trans (s.sameExcept_setFb fb)
    (State.sameExcept_setReg _ vf _)) _) (.inl rfl) rfl ?_
  rintro p (hp | hp | hp | hp)
  · exact .inl hp
  · exact .inr (.inr (.inl hp))
  · exact .inr (.inr (.inr hp))
  · exact .inr (.inl hp)

theorem goesOn_wkey_begin (x : Reg) (s : State) : GoesOn (.wkey x) s (s.setAwaiting true) where
  frame := sameExcept_mono (s.sameExcept_setAwaiting true) fun _ hp => .inr (.inr (.inl hp))
  stores := .inl rfl
  pc h := nomatch h

theorem goesOn_wkey_other (x : Reg) (s : State) (h : s.awaitingKey = true) : GoesOn (.wkey x) s s.nextEvent.2 where
  frame := sameExcept_mono s.sameExcept_nextEvent fun _ hp => by
    rcases hp with hp | hp
    · exact .inr (.inr (.inr (.inl hp)))
    · exact .inr (.inr (.inr (.inr (.inl hp))))
  stores := .inl s.nextEvent_mem
  pc h' := by
    rw [s.nextEvent_awaitingKey, h] at h'
    cases h'

theorem goesOn_wkey_key (x : Reg) (s : State) (k : Key) :
    GoesOn (.wkey x) s (((s.nextEvent.2.setAwaiting false).setReg x (keyByte k)).pressKey k).advance := by
  refine goesOn_advance (sameExcept_trans (sameExcept_trans (sameExcept_trans s.sameExcept_nextEvent
    (State.sameExcept_setAwaiting _ false)) (State.sameExcept_setReg _ x _)) (State.sameExcept_pressKey _ k))
    (.inl s.nextEvent_mem) s.nextEvent_pc ?_
  intro p hp
  simp only [mayWrite]
  tauto

/-! ## All execute can answer -/

/-- The ways execute can end: it goes on, or it enters HALT with a runtime fault, an unrecognized word, or a quit inside a
wait (60_exceptions.md R99). -/
inductive Answer : Instr → State → State → Prop where
  | goesOn {i : Instr} {s t : State} (h : GoesOn i s t) : Answer i s t
  | faults {i : Instr} {s : State} (f : Fault) (h : mayHalt i = true) (hw : ∀ x, i ≠ .wkey x) :
      Answer i s (s.haltWith (.runtime f))
  | unrecognized {s : State} (w : Word) : Answer (.opcodeNone w) s (s.haltWith (.decodeFault w))
  | quits {s : State} (x : Reg) : Answer (.wkey x) s ((s.nextEvent.2.setAwaiting false).haltWith .quit)

/-- Execute answers a next state for every operation, in one of these ways. -/
theorem exec_answer (i : Instr) (s : State) : ∃ t, exec i s = .next t ∧ Answer i s t := by
  cases i with
  | cls =>
    have hframe := sameExcept_emit_of_sameExcept (s.sameExcept_setFb fbClear) .displayClear
    exact ⟨_, rfl, .goesOn (goesOn_advance hframe (.inl rfl) rfl)⟩
  | ret =>
    rcases execRet_cases s with ⟨h, e⟩ | ⟨-, e⟩
    · exact ⟨_, e, .goesOn (goesOn_ret s h)⟩
    · exact ⟨_, e, .faults _ rfl nofun⟩
  | sys nnn => exact ⟨_, execSys_eq nnn s, .goesOn (goesOn_setPc (by rw [zextByte_toNat]; rfl))⟩
  | jp nnn => exact ⟨_, rfl, .goesOn (goesOn_setPc (by rw [zextAddr_toNat]; rfl))⟩
  | call nnn =>
    rcases execCall_cases nnn s with ⟨h, e⟩ | ⟨-, e⟩
    · exact ⟨_, e, .goesOn (goesOn_call nnn s h)⟩
    · exact ⟨_, e, .faults _ rfl nofun⟩
  | sei x _ | ser x _ => exact ⟨_, rfl, .goesOn (goesOn_skipIf (byte_beq_iff_toNat_eq _ _))⟩
  | snei x _ | sner x _ => exact ⟨_, rfl, .goesOn (goesOn_skipIf (byte_bne_iff_toNat_ne _ _))⟩
  | ldi x _ | addi x _ | ldx x _ | orx x _ | anx x _ | xor x _ | lddt x =>
    exact ⟨_, rfl, .goesOn (goesOn_advance (s.sameExcept_setReg x _) (.inl rfl) rfl)⟩
  | adc x _ | sub x _ | srh x _ | subn x _ | shl x _ =>
    exact ⟨_, rfl, .goesOn (goesOn_advance (s.sameExcept_setResultFlag x _ _) (.inl rfl) rfl)⟩
  | lda _ | adda _ | font _ => exact ⟨_, rfl, .goesOn (goesOn_advance (s.sameExcept_setI _) (.inl rfl) rfl)⟩
  | jpv0 nnn => exact ⟨_, rfl, .goesOn (goesOn_setPc (by rw [offsetTarget_toNat]; rfl))⟩
  | rnd x nn =>
    exact ⟨_, rfl, .goesOn (goesOn_advance (sameExcept_trans s.sameExcept_draw (State.sameExcept_setReg _ x _))
      (.inl rfl) rfl fun _ hp => hp.imp_right Or.symm)⟩
  | drw x y n =>
    rcases execDrw_cases x y n s with ⟨-, -, fb, e, -⟩ | ⟨-, e⟩ | ⟨-, idx, -, e⟩
    · exact ⟨_, e, .goesOn (goesOn_drw x y n s _ _)⟩
    · exact ⟨_, e, .faults _ rfl nofun⟩
    · exact ⟨_, e, .faults _ rfl nofun⟩
  | skp x =>
    rcases execSkp_cases x s with ⟨h, e⟩ | ⟨-, e⟩
    · exact ⟨_, e, .goesOn (goesOn_skp x s h)⟩
    · exact ⟨_, e, .faults _ rfl nofun⟩
  | sknp x =>
    rcases execSknp_cases x s with ⟨h, e⟩ | ⟨-, e⟩
    · exact ⟨_, e, .goesOn (goesOn_skipIf Iff.rfl (fun _ => id) (by rw [pcWay, key_getD s _ h, Bool.decide_eq_true]))⟩
    · exact ⟨_, e, .faults _ rfl nofun⟩
  | wkey x =>
    rcases execWkey_cases x s with ⟨-, e⟩ | ⟨ha, -, e⟩ | ⟨-, k, -, e⟩ | ⟨-, -, e⟩
    · exact ⟨_, e, .goesOn (goesOn_wkey_begin x s)⟩
    · exact ⟨_, e, .goesOn (goesOn_wkey_other x s ha)⟩
    · exact ⟨_, e, .goesOn (goesOn_wkey_key x s k)⟩
    · exact ⟨_, e, .quits x⟩
  | stdt x => exact ⟨_, rfl, .goesOn (goesOn_advance (s.sameExcept_setDt _) (.inl rfl) rfl)⟩
  | stst x => exact ⟨_, rfl, .goesOn (goesOn_advance (s.sameExcept_setSt _) (.inl rfl) rfl)⟩
  | bcd x =>
    rcases execBcd_cases x s with ⟨h, e⟩ | ⟨-, e⟩
    · exact ⟨_, e, .goesOn (goesOn_bcd x s h)⟩
    · exact ⟨_, e, .faults _ rfl nofun⟩
  | stm x =>
    rcases execStm_cases x s with ⟨h, e⟩ | ⟨-, e⟩
    · exact ⟨_, e, .goesOn (goesOn_stm x s h)⟩
    · exact ⟨_, e, .faults _ rfl nofun⟩
  | ldm x =>
    rcases execLdm_cases x s with ⟨-, e⟩ | ⟨-, e⟩
    · exact ⟨_, e, .goesOn (goesOn_ldm x s)⟩
    · exact ⟨_, e, .faults _ rfl nofun⟩
  | opcodeNone w => exact ⟨_, rfl, .unrecognized w⟩

/-- What execute answers is one of these ways. -/
theorem answer_of_exec {i : Instr} {s t : State} (h : exec i s = .next t) : Answer i s t := by
  obtain ⟨u, hu, ha⟩ := exec_answer i s
  rw [h] at hu
  cases hu
  exact ha

/-! ## What no operation writes when it goes on -/

theorem not_mayWrite_runState (i : Instr) (s : State) : ¬ mayWrite i s .runState := by
  cases i <;> simp [mayWrite]

theorem not_mayWrite_haltCause (i : Instr) (s : State) : ¬ mayWrite i s .haltCause := by
  cases i <;> simp [mayWrite]

/-- An operation that goes on leaves `run_state` alone. -/
theorem GoesOn.runState {i : Instr} {s t : State} (h : GoesOn i s t) : t.runState = s.runState :=
  h.frame .runState (not_mayWrite_runState i s)

/-- An operation that goes on leaves `halt_cause` alone. -/
theorem GoesOn.haltCause {i : Instr} {s t : State} (h : GoesOn i s t) : t.haltCause = s.haltCause :=
  h.frame .haltCause (not_mayWrite_haltCause i s)

/-- Only WKEY writes `awaiting_key`. -/
theorem GoesOn.awaitingKey {i : Instr} {s t : State} (h : GoesOn i s t) (hi : ∀ x, i ≠ .wkey x) :
    t.awaitingKey = s.awaitingKey := by
  refine h.frame .awaitingKey ?_
  cases i with
  | wkey x => exact absurd rfl (hi x)
  | _ => simp [mayWrite]

/-- An operation that cannot enter HALT goes on. -/
theorem goesOn_of_not_mayHalt {i : Instr} {s t : State} (hi : mayHalt i = false) (h : exec i s = .next t) :
    GoesOn i s t := by
  cases answer_of_exec h with
  | goesOn hg => exact hg
  | faults f hm _ => exact absurd (hi.symm.trans hm) (by decide)
  | unrecognized w => cases hi
  | quits x => cases hi

/-! ## The statements about all operations -/

/-- Settles O52: every way execute can end is a next state. -/
theorem everyInstructionAnswersANextState : Obligations.EveryInstructionAnswersANextState := fun i s =>
  (exec_answer i s).imp fun _ h => h.1

/-- Settles O54: only a raised fault ends in a fault state; an operation that goes on leaves EXEC, and the other two ways
into HALT have another cause. -/
theorem runtimeFaultsArePrecise : Obligations.RuntimeFaultsArePrecise := by
  intro i s t hs h ⟨hhalt, hcause⟩
  cases answer_of_exec h with
  | goesOn hg =>
    rw [hg.runState, hs] at hhalt
    cases hhalt
  | faults f _ _ => exact ⟨f, s.takesFault_haltWith f⟩
  | unrecognized w => cases hcause
  | quits x => cases hcause

/-- Settles O55: they go on, and neither `run_state` nor `halt_cause` nor, WKEY being one that can halt, `awaiting_key` is
in their rows. -/
theorem onlyTheNamedInstructionsCanHalt : Obligations.OnlyTheNamedInstructionsCanHalt := by
  intro i s hi
  obtain ⟨t, h, -⟩ := exec_answer i s
  have hg := goesOn_of_not_mayHalt hi h
  refine ⟨t, h, hg.runState, hg.haltCause, hg.awaitingKey ?_⟩
  rintro x rfl
  cases hi

/-- The frame of a quit inside a wait: the event, the wait, and the halt. -/
theorem sameExcept_quit (s : State) : SameExcept
    (fun p => ((p = .events ∨ p = .freeEvents) ∨ p = .awaitingKey) ∨ haltPart p) s
    ((s.nextEvent.2.setAwaiting false).haltWith .quit) :=
  sameExcept_trans (sameExcept_trans s.sameExcept_nextEvent (State.sameExcept_setAwaiting _ false))
    (State.sameExcept_haltWith _ .quit)

/-- Settles O56: an operation that goes on keeps to its row, and entering HALT adds the three parts of a halt. -/
theorem instructionsWriteOnlyTheirRow : Obligations.InstructionsWriteOnlyTheirRow := by
  intro i s t h
  cases answer_of_exec h with
  | goesOn hg => exact sameExcept_mono hg.frame fun _ => .inl
  | faults f hm _ => exact sameExcept_mono (s.sameExcept_haltWith _) fun _ hp => .inr ⟨hm, hp⟩
  | unrecognized w => exact sameExcept_mono (s.sameExcept_haltWith _) fun _ hp => .inr ⟨rfl, hp⟩
  | quits x =>
    refine sameExcept_mono (sameExcept_quit s) ?_
    rintro p (((hp | hp) | hp) | hp)
    · exact .inl (.inr (.inr (.inr (.inl hp))))
    · exact .inl (.inr (.inr (.inr (.inr (.inl hp)))))
    · exact .inl (.inr (.inr (.inl hp)))
    · exact .inr ⟨rfl, hp⟩

/-- A WKEY that still waits has not moved `pc`. -/
theorem pc_of_wkey_waiting {x : Reg} {s t : State} (h : exec (.wkey x) s = .next t) (ht : t.awaitingKey = true) :
    t.pc = s.pc := by
  rcases execWkey_cases x s with ⟨-, e⟩ | ⟨-, -, e⟩ | ⟨-, k, -, e⟩ | ⟨-, -, e⟩ <;> cases h.symm.trans e
  · rfl
  · exact s.nextEvent_pc
  · cases ht
  · cases ht

/-- Entering HALT leaves `pc` as it was. -/
theorem Answer.pc_of_runState_ne {i : Instr} {s t : State} (h : Answer i s t) (ht : t.runState ≠ s.runState) :
    t.pc = s.pc := by
  cases h with
  | goesOn hg => exact absurd hg.runState ht
  | faults f _ _ => rfl
  | unrecognized w => rfl
  | quits x => exact s.nextEvent_pc

/-- Settles O53: an operation that goes on sets `pc` in its way unless it waits, which only WKEY does and then leaves `pc`;
entering HALT leaves it too. -/
theorem pcContract : Obligations.PcContract := by
  intro i s t hs hwait h
  have ha := answer_of_exec h
  refine ⟨fun hexec hdone => ?_, fun hne => ha.pc_of_runState_ne (hs.symm ▸ hne), fun ht => ?_⟩
  · cases ha with
    | goesOn hg => exact hg.pc hdone
    | faults f _ _ => cases hexec
    | unrecognized w => cases hexec
    | quits x => cases hexec
  · by_cases hi : ∃ x, i = .wkey x
    · obtain ⟨x, rfl⟩ := hi
      exact pc_of_wkey_waiting h ht
    · have hsa : s.awaitingKey ≠ true := mt hwait hi
      cases ha with
      | goesOn hg =>
        rw [hg.awaitingKey fun x e => hi ⟨x, e⟩] at ht
        exact absurd ht hsa
      | faults f _ _ => exact absurd ht hsa
      | unrecognized w => exact absurd ht hsa
      | quits x => cases ht

end Sys2Proof.Machine
end

section
/-! PROOFS. The invariant of the machine: it holds at reset, and execute, the timer step and each transaction of the host
keep it, so every step does (10_state.md R15, 20_memory.md R23, 40_control_flow.md R54, 45_keys.md R87, 60_exceptions.md
R99). -/

namespace Sys2Proof.Machine

open Sys2Proof.Safety

/-- The invariant speaks of memory, keys, run state, halt cause, the wait, `pc` and the stack alone. -/
theorem inv_congr {s t : State} (h : Inv s) (hmem : t.mem = s.mem) (hkey : t.key = s.key)
    (hrun : t.runState = s.runState) (hcause : t.haltCause = s.haltCause) (hwait : t.awaitingKey = s.awaitingKey)
    (hpc : t.pc = s.pc) (hstack : t.stack = s.stack) (hsp : t.sp = s.sp) : Inv t := by
  simp only [Safety.Inv, AtWkey, instrAt, State.keyDown, hmem, hkey, hrun, hcause, hwait, hpc, hstack, hsp]
  exact h

/-- Settles O57: at reset memory lists nothing, no key is pressed, the machine runs and the stack is empty. -/
theorem resetMeetsTheInvariant : Obligations.ResetMeetsTheInvariant := by
  have hkeys : ∀ k : Key, State.reset.keyDown k = false := by decide
  refine ⟨rfl, rfl, fun j k hj _ => ?_, by decide, nofun, fun k hk => absurd hk (Nat.not_lt_zero _)⟩
  rw [hkeys] at hj
  cases hj

/-! ## Memory -/

theorem Answer.stores {i : Instr} {s t : State} (h : Answer i s t) : Stores s t := by
  cases h with
  | goesOn hg => exact hg.stores
  | faults f _ _ => exact .inl rfl
  | unrecognized w => exact .inl rfl
  | quits x => exact .inl s.nextEvent_mem

theorem Stores.wf {s t : State} (h : Stores s t) (hs : s.mem.wf = true) : t.mem.wf = true := by
  rcases h with h | ⟨bs, -, h⟩
  · rw [h, hs]
  · rw [h]
    exact Memory.wf_writeList _ bs hs

theorem Stores.inStore {s t : State} (h : Stores s t) (hs : s.mem.inStore = true) : t.mem.inStore = true := by
  rcases h with h | ⟨bs, hle, h⟩
  · rw [h, hs]
  · rw [h]
    exact Memory.inStore_writeList _ bs hs hle

/-! ## Keys -/

/-- At most one key is pressed (10_state.md R15). -/
def OneKey (s : State) : Prop := ∀ j k : Key, s.keyDown j = true → s.keyDown k = true → j = k

theorem oneKey_pressKey (s : State) (n : Key) : OneKey (s.pressKey n) := by
  intro j k hj hk
  simp only [State.pressKey_keyDown, decide_eq_true_eq] at hj hk
  rw [hj, hk]

theorem OneKey.of_imp {s t : State} (h : OneKey s) (hst : ∀ j, t.keyDown j = true → s.keyDown j = true) : OneKey t :=
  fun j k hj hk => h j k (hst j hj) (hst k hk)

theorem oneKey_of_exec {i : Instr} {s t : State} (hs : OneKey s) (h : exec i s = .next t) : OneKey t := by
  have hframe := instructionsWriteOnlyTheirRow i s t h
  cases i with
  | skp x =>
    rcases execSkp_cases x s with ⟨hx, e⟩ | ⟨-, e⟩
    · cases h.symm.trans e
      refine hs.of_imp fun j hj => ?_
      split at hj
      · simp only [State.skipIf_eq, State.setPc_keyDown, State.releaseKey_keyDown, Bool.and_eq_true] at hj
        exact hj.2
      · exact hj
    · cases h.symm.trans e
      exact hs
  | wkey x =>
    rcases execWkey_cases x s with ⟨-, e⟩ | ⟨-, -, e⟩ | ⟨-, k, -, e⟩ | ⟨-, -, e⟩ <;> cases h.symm.trans e
    · exact hs
    · exact hs.of_imp fun j hj => by simpa using hj
    · exact oneKey_pressKey ((s.nextEvent.2.setAwaiting false).setReg x (keyByte k)) k
    · exact hs.of_imp fun j hj => by simpa using hj
  | _ =>
    refine hs.of_imp fun j hj => ?_
    rw [← hj]
    exact (hframe (.key j) (by simp [mayWrite, haltPart])).symm

/-! ## Halting -/

theorem Answer.haltCause_iff {i : Instr} {s t : State} (h : Answer i s t)
    (hs : s.haltCause = .none ↔ s.runState ≠ .halt) : t.haltCause = .none ↔ t.runState ≠ .halt := by
  cases h with
  | goesOn hg => rw [hg.haltCause, hg.runState, hs]
  | faults f _ _ => simp
  | unrecognized w => simp
  | quits x => simp

/-! ## The wait -/

/-- A WKEY that goes on waiting is still at `pc`. -/
theorem atWkey_of_wkey {x : Reg} {s t : State} (hexec : s.runState = .exec) (hf : Fetchable s.pc.toNat)
    (hi : instrAt s = .wkey x) (h : exec (.wkey x) s = .next t) (ht : t.awaitingKey = true) : AtWkey t := by
  rcases execWkey_cases x s with ⟨-, e⟩ | ⟨-, -, e⟩ | ⟨-, k, -, e⟩ | ⟨-, -, e⟩ <;> cases h.symm.trans e
  · exact ⟨hexec, hf, x, hi⟩
  · simp only [AtWkey, instrAt, State.nextEvent_runState, State.nextEvent_pc, State.nextEvent_mem]
    exact ⟨hexec, hf, x, hi⟩
  · cases ht
  · cases ht

/-- An operation other than WKEY leaves `awaiting_key` alone, whether it goes on or enters HALT. -/
theorem Answer.awaitingKey {i : Instr} {s t : State} (h : Answer i s t) (hi : ∀ x, i ≠ .wkey x) :
    t.awaitingKey = s.awaitingKey := by
  cases h with
  | goesOn hg => exact hg.awaitingKey hi
  | faults f _ _ => rfl
  | unrecognized w => rfl
  | quits x => exact absurd rfl (hi x)

theorem atWkey_of_exec {i : Instr} {s t : State} (hexec : s.runState = .exec) (hf : Fetchable s.pc.toNat)
    (hi : instrAt s = i) (hs : s.awaitingKey = true → AtWkey s) (h : exec i s = .next t)
    (ht : t.awaitingKey = true) : AtWkey t := by
  by_cases hw : ∃ x, i = .wkey x
  · obtain ⟨x, rfl⟩ := hw
    exact atWkey_of_wkey hexec hf hi h ht
  · rw [(answer_of_exec h).awaitingKey fun x e => hw ⟨x, e⟩] at ht
    obtain ⟨-, -, x, hx⟩ := hs ht
    exact absurd ⟨x, hi.symm.trans hx⟩ hw

/-! ## The call stack -/

/-- Every live stack entry is an address an instruction was fetched from (40_control_flow.md R54). -/
def LiveFetchable (s : State) : Prop := ∀ k : Fin 16, k.val < s.sp.val → Fetchable (s.stack.get k).toNat

theorem liveFetchable_of_exec {i : Instr} {s t : State} (hf : Fetchable s.pc.toNat) (hs : LiveFetchable s)
    (h : exec i s = .next t) : LiveFetchable t := by
  have hframe := instructionsWriteOnlyTheirRow i s t h
  cases i with
  | ret =>
    rcases execRet_cases s with ⟨hsp, e⟩ | ⟨-, e⟩ <;> cases h.symm.trans e
    · exact fun k hk => hs k (Nat.lt_of_lt_of_le hk (Nat.sub_le _ _))
    · exact hs
  | call nnn =>
    rcases execCall_cases nnn s with ⟨hsp, e⟩ | ⟨-, e⟩ <;> cases h.symm.trans e
    · intro k hk
      simp only [Vector.get_eq_getElem, Vector.getElem_set]
      split
      · exact hf
      · exact hs k (by simp at hk; omega)
    · exact hs
  | _ =>
    intro k hk
    rw [hframe .sp (by simp [mayWrite, haltPart])] at hk
    rw [hframe (.stackEntry k) (by simp [mayWrite, haltPart])]
    exact hs k hk

/-! ## A cycle -/

theorem inv_of_exec {i : Instr} {s t : State} (hs : Inv s) (hexec : s.runState = .exec) (hf : Fetchable s.pc.toNat)
    (hi : instrAt s = i) (h : exec i s = .next t) : Inv t := by
  obtain ⟨hwf, hin, hkeys, hhalt, hwait, hstack⟩ := hs
  have ha := answer_of_exec h
  exact ⟨ha.stores.wf hwf, ha.stores.inStore hin, oneKey_of_exec hkeys h, ha.haltCause_iff hhalt,
    atWkey_of_exec hexec hf hi hwait h, liveFetchable_of_exec hf hstack h⟩

theorem inv_noteUpdate {s : State} (hs : Inv s) : Inv (noteUpdate s) := inv_congr hs rfl rfl rfl rfl rfl rfl rfl rfl

theorem inv_endCycle {s : State} (hs : Inv s) : Inv (endCycle s) := by
  apply inv_congr hs <;> simp

/-- Entering HALT with no wait under way. -/
theorem inv_haltWith {s : State} {c : HaltCause} (hs : Inv s) (hc : c ≠ .none) (ha : s.awaitingKey = false) :
    Inv (s.haltWith c) := by
  obtain ⟨hwf, hin, hkeys, -, -, hstack⟩ := hs
  refine ⟨hwf, hin, hkeys, by simp [hc], fun h => ?_, hstack⟩
  rw [State.haltWith_awaitingKey, ha] at h
  cases h

/-- A wait is under way only where a WKEY can be fetched, so a fetch that faults finds none. -/
theorem awaitingKey_of_not_fetchable {s : State} (hs : Inv s) (hf : ¬ Fetchable s.pc.toNat) : s.awaitingKey = false := by
  obtain ⟨-, -, -, -, hwait, -⟩ := hs
  exact Bool.eq_false_iff.2 fun h => hf (hwait h).2.1

theorem inv_of_cycle {s t : State} (hs : Inv s) (hexec : s.runState = .exec) (h : cycle s = .next t) : Inv t := by
  rcases cycle_next h with ⟨hf, u, hu, rfl⟩ | ⟨hf, rfl⟩
  · exact inv_endCycle (inv_of_exec (inv_noteUpdate hs) hexec hf rfl hu)
  · exact inv_haltWith (inv_noteUpdate hs) nofun (awaitingKey_of_not_fetchable hs (Nat.not_lt.2 (Nat.le_of_lt_succ hf)))

/-! ## The host's transactions, with no wait under way -/

theorem inv_of_update {s t : State} (hs : Inv s) (h : update s = .next t) : Inv t := by
  rcases update_next h with ⟨hexec, hc⟩ | ⟨-, rfl⟩ | ⟨-, rfl⟩
  · exact inv_of_cycle hs hexec hc
  · exact inv_noteUpdate hs
  · exact hs

theorem inv_of_hostReset {s t : State} (h : hostReset s = .next t) : Inv t := by
  cases h
  exact inv_congr resetMeetsTheInvariant rfl rfl rfl rfl rfl rfl rfl rfl

theorem inv_of_hostLoad {bytes : List Byte} {offset : Nat} {s t : State} (hs : Inv s) (ha : s.awaitingKey = false)
    (h : hostLoad bytes offset s = .next t) : Inv t := by
  rcases hostLoad_next h with rfl | ⟨-, -, hle, rfl⟩
  · exact hs
  · obtain ⟨hwf, hin, hkeys, hhalt, -, hstack⟩ := hs
    exact ⟨Memory.wf_writeList offset bytes hwf, Memory.inStore_writeList offset bytes hin hle, hkeys, hhalt,
      fun h => absurd (ha.symm.trans h) nofun, hstack⟩

theorem inv_of_hostSetKey {n : Nat} {s t : State} (hs : Inv s) (h : hostSetKey n s = .next t) : Inv t := by
  rcases hostSetKey_next h with rfl | ⟨-, hn, rfl⟩
  · exact hs
  · obtain ⟨hwf, hin, -, hhalt, hwait, hstack⟩ := hs
    exact ⟨hwf, hin, oneKey_pressKey s ⟨n, hn⟩, hhalt, hwait, hstack⟩

theorem inv_of_hostQuit {s t : State} (hs : Inv s) (ha : s.awaitingKey = false) (h : hostQuit s = .next t) : Inv t := by
  rcases hostQuit_next h with rfl | ⟨-, rfl⟩
  · exact hs
  · exact inv_haltWith hs nofun ha

/-- A change between EXEC and PAUSE, with no wait under way. -/
theorem inv_setRunState {s : State} {r : RunState} (hs : Inv s) (hr : r ≠ .halt) (hsr : s.runState ≠ .halt)
    (ha : s.awaitingKey = false) : Inv { s with runState := r } := by
  obtain ⟨hwf, hin, hkeys, hhalt, -, hstack⟩ := hs
  exact ⟨hwf, hin, hkeys, ⟨fun _ => hr, fun _ => hhalt.2 hsr⟩, fun h => absurd (ha.symm.trans h) nofun, hstack⟩

theorem inv_of_hostPause {s t : State} (hs : Inv s) (ha : s.awaitingKey = false) (h : hostPause s = .next t) :
    Inv t := by
  rcases hostPause_next h with rfl | ⟨hr, rfl⟩
  · exact hs
  · exact inv_setRunState hs nofun (by simp [hr]) ha

theorem inv_of_hostResume {s t : State} (hs : Inv s) (ha : s.awaitingKey = false) (h : hostResume s = .next t) :
    Inv t := by
  rcases hostResume_next h with rfl | ⟨hr, rfl⟩
  · exact hs
  · exact inv_setRunState hs nofun (by simp [hr]) ha

theorem inv_of_perform {r : HostRequest} {s t : State} (hs : Inv s) (ha : s.awaitingKey = false)
    (h : perform r s = .next t) : Inv t := by
  cases r with
  | update => exact inv_of_update hs h
  | reset => exact inv_of_hostReset h
  | load bytes offset => exact inv_of_hostLoad hs ha h
  | setKey n => exact inv_of_hostSetKey hs h
  | quit => exact inv_of_hostQuit hs ha h
  | pause => exact inv_of_hostPause hs ha h
  | resume => exact inv_of_hostResume hs ha h

/-- A wait is under way in EXEC only, so where none is under way `awaiting_key` is 0. -/
theorem awaitingKey_of_not_midWait {s : State} (hs : Inv s) (hm : midWait s = false) : s.awaitingKey = false := by
  obtain ⟨-, -, -, -, hwait, -⟩ := hs
  refine Bool.eq_false_iff.2 fun h => ?_
  have := midWait_eq_true.2 ⟨(hwait h).1, h⟩
  exact absurd (hm.symm.trans this) nofun

/-- Settles O58: the step is a cycle or a transaction of the host, and each of them keeps the invariant. -/
theorem stepKeepsTheInvariant : Obligations.StepKeepsTheInvariant := by
  intro s t hs h
  rcases step_cases s with ⟨hexec, -, e⟩ | ⟨hm, r, rest, -, e⟩ | ⟨-, -, e⟩ <;> rw [e] at h
  · exact inv_of_cycle hs hexec h
  · exact inv_of_perform (s := { s with requests := rest }) (inv_congr hs rfl rfl rfl rfl rfl rfl rfl rfl)
      (awaitingKey_of_not_midWait hs hm) h
  · exact inv_of_update hs h

end Sys2Proof.Machine
end

section
/-! PROOFS. The control transfers through memory and the call stack, and the operation of an unrecognized word
(40_control_flow.md, 41_skips.md R62 and R63, 30_encoding.md R47). -/

namespace Sys2Proof.Machine

open Sys2Proof.Safety

/-- Settles O16: RET goes on with the popped entry, or raises the fault. -/
theorem returnPopsAndAddsTwo : Obligations.ReturnPopsAndAddsTwo := by
  refine fun s => ⟨fun k hk => ?_, fun h0 => ?_⟩
  · rcases execRet_cases s with ⟨h, e⟩ | ⟨h, -⟩
    · have hi : s.sp.val - 1 = k.val := by omega
      refine ⟨_, e, ?_, hi, (goesOn_ret s h).frame⟩
      simp only [hi]
      exact BitVec.toNat_add _ _
    · omega
  · rcases execRet_cases s with ⟨h, -⟩ | ⟨-, e⟩
    · omega
    · exact ⟨_, e, s.takesFault_haltWith _⟩

/-- Settles O17: every 12-bit address exists, so SYS is one write to `pc`. -/
theorem sysJumpsThroughAByteOfMemory : Obligations.SysJumpsThroughAByteOfMemory := fun nnn s =>
  ⟨_, execSys_eq nnn s, zextByte_toNat _, s.sameExcept_setPc _⟩

/-- Settles O19: CALL goes on with its own address pushed, or raises the fault. -/
theorem callPushesItsOwnAddress : Obligations.CallPushesItsOwnAddress := by
  refine fun nnn s => ⟨fun k hk => ?_, fun h16 => ?_⟩
  · rcases execCall_cases nnn s with ⟨h, e⟩ | ⟨h, -⟩
    · refine ⟨_, e, ?_, rfl, zextAddr_toNat nnn, sameExcept_mono (goesOn_call nnn s h).frame ?_⟩
      · simp [Vector.get_eq_getElem, hk]
      · rintro p (hp | hp | ⟨j, hj, hp⟩)
        · exact .inl hp
        · exact .inr (.inl hp)
        · exact .inr (.inr (Fin.ext (hj.trans hk.symm) ▸ hp))
    · have := k.isLt
      omega
  · rcases execCall_cases nnn s with ⟨h, -⟩ | ⟨-, e⟩
    · omega
    · exact ⟨_, e, s.takesFault_haltWith _⟩

/-- Settles O20: the entry RET pops is the one CALL pushed, and the entries below it are untouched. -/
theorem returnUndoesCall : Obligations.ReturnUndoesCall := by
  intro nnn s pc' hsp
  obtain ⟨t, ht, hentry, htsp, -, hframe⟩ := (callPushesItsOwnAddress nnn s).1 ⟨s.sp.val, hsp⟩ rfl
  obtain ⟨u, hu, hpc, husp, hframe'⟩ := (returnPopsAndAddsTwo { t with pc := pc' }).1 ⟨s.sp.val, hsp⟩ htsp.symm
  refine ⟨t, u, ht, hu, ?_, Fin.ext husp, fun k hk => ?_⟩
  · rw [PcPlus, hpc, hentry]
  · have hpopped : u.stack.get k = t.stack.get k := hframe' (.stackEntry k) (by simp)
    have hpushed : t.stack.get k = s.stack.get k := hframe (.stackEntry k) (by simpa [Fin.ext_iff] using hk)
    rw [hpopped, hpushed]

/-- Classes 5 and 9 leave every low nibble but 0 to `opcode_none` (30_encoding.md R43, R47). -/
theorem decode_wordXYN_of_lowNibble_ne {c n : Nibble} (x y : Reg) (hn : n ≠ 0) (hc : c = 5 ∨ c = 9) :
    decode (wordXYN c x y n) = .opcodeNone (wordXYN c x y n) := by
  have hn' : n ≠ 0#4 := hn
  rcases hc with rfl | rfl <;> simp [decode, decodeLowZero, hn']

theorem hasEncoding_of_wordXYN_low {i : Instr} (c : Nibble) (x y : Reg) (n : Nibble)
    (he : encode i = wordXYN c x y n) (hd : decode (wordXYN c x y n) = i) :
    HasEncoding i (wordXYN c 0 0 n) 0xF00F := by
  rw [HasEncoding, he]
  exact ⟨Laws.TableRow.wordXYN_and_low c x y n, hd⟩

/-- Settles O22: both are a skip on a comparison of two bytes; the other words of their classes are `opcode_none`. -/
theorem skipsOnRegisters : Obligations.SkipsOnRegisters := by
  intro x y s
  have hser : exec (.ser x y) s = .next (s.skipIf (s.reg x == s.reg y)) := rfl
  have hsner : exec (.sner x y) s = .next (s.skipIf (s.reg x != s.reg y)) := rfl
  refine ⟨skips_of_exec_eq hser (byte_beq_iff_toNat_eq _ _), skips_of_exec_eq hsner (byte_bne_iff_toNat_ne _ _),
    hasEncoding_of_wordXYN_low 0x5 x y 0x0 rfl (decodeOfEncodeIsTheInstruction (.ser x y) rfl),
    hasEncoding_of_wordXYN_low 0x9 x y 0x0 rfl (decodeOfEncodeIsTheInstruction (.sner x y) rfl), fun n c hn hc => ?_⟩
  have hd := decode_wordXYN_of_lowNibble_ne x y hn hc
  exact ⟨hd, _, congrArg (exec · s) hd, rfl, rfl, rfl⟩

/-- Settles O51: `opcode_none` is one entry into HALT. -/
theorem unrecognizedWordHalts : Obligations.UnrecognizedWordHalts := fun w s =>
  ⟨s.haltWith (.decodeFault w), rfl, rfl, rfl, rfl, s.sameExcept_haltWith _⟩

end Sys2Proof.Machine
end

section
/-! PROOFS. The instructions that compute a register or `I` from registers: immediate, random and ALU instructions, ADDA
and FONT (42_immediate.md, 43_alu.md, 47_index_memory.md R94 and R95). -/

namespace Sys2Proof.Machine

open Sys2Proof.Safety

/-! ## One write and then `advance` -/

/-- An instruction whose meaning is a write of `b` to `V[X]` and then `advance`. -/
theorem writesReg_of_exec_eq {i : Instr} {s : State} {x : Reg} {b : Byte} (he : exec i s = .next (s.setReg x b).advance) :
    ∃ t, exec i s = .next t ∧ t.reg x = b ∧ PcPlus 2 s t ∧ SameExcept (fun p => p = .pc ∨ p = .reg x) s t :=
  ⟨_, he, by simp, pcPlus_advance rfl, sameExcept_advance (s.sameExcept_setReg x b)⟩

/-- An instruction whose meaning is a write of `w` to `I` and then `advance`. -/
theorem writesIndex_of_exec_eq {i : Instr} {s : State} {w : Word} (he : exec i s = .next (s.setI w).advance) :
    ∃ t, exec i s = .next t ∧ t.i = w ∧ PcPlus 2 s t ∧ SameExcept (fun p => p = .pc ∨ p = .index) s t :=
  ⟨_, he, rfl, pcPlus_advance rfl, sameExcept_advance (s.sameExcept_setI w)⟩

/-- Settles O24: one write of the sum of two bytes. -/
theorem addImmediateWrapsWithoutFlag : Obligations.AddImmediateWrapsWithoutFlag := by
  intro x nn s
  obtain ⟨t, he, hr, hrest⟩ := writesReg_of_exec_eq (i := .addi x nn) (s := s) rfl
  exact ⟨t, he, by rw [hr, BitVec.toNat_add], hrest⟩

/-- Settles O25: the draw is masked bit by bit, so no bit outside the mask is left to exceed it. -/
theorem randomByteUnderMask : Obligations.RandomByteUnderMask := by
  intro x nn s
  have hrnd : exec (.rnd x nn) s = .next (s.draw.2.setReg x (Config.randByte s.draws &&& nn)).advance := rfl
  have hreg : (s.draw.2.setReg x (Config.randByte s.draws &&& nn)).advance.reg x = Config.randByte s.draws &&& nn := by
    simp
  refine ⟨_, hrnd, fun k => ?_, ?_, rfl, pcPlus_advance rfl, (goesOn_of_not_mayHalt rfl hrnd).frame⟩
  · rw [hreg, BitVec.getLsbD_and]
  · rw [hreg, BitVec.toNat_and]
    exact Nat.and_le_right

/-- Settles O26: each writes one byte, computed bit by bit. -/
theorem copyAndBitwiseOperations : Obligations.CopyAndBitwiseOperations := by
  intro x y s
  refine ⟨writesReg_of_exec_eq rfl, ?_, ?_, ?_⟩
  · obtain ⟨t, he, hr, hrest⟩ := writesReg_of_exec_eq (i := .orx x y) (s := s) rfl
    exact ⟨t, he, fun k => by rw [hr, BitVec.getLsbD_or], hrest⟩
  · obtain ⟨t, he, hr, hrest⟩ := writesReg_of_exec_eq (i := .anx x y) (s := s) rfl
    exact ⟨t, he, fun k => by rw [hr, BitVec.getLsbD_and], hrest⟩
  · obtain ⟨t, he, hr, hrest⟩ := writesReg_of_exec_eq (i := .xor x y) (s := s) rfl
    exact ⟨t, he, fun k => by rw [hr, BitVec.getLsbD_xor], hrest⟩

/-- Settles O43: one write of the 16-bit sum to `I`. -/
theorem addToIndexWraps : Obligations.AddToIndexWraps := by
  intro x s
  obtain ⟨t, he, hi, hrest⟩ := writesIndex_of_exec_eq (i := .adda x) (s := s) rfl
  exact ⟨t, he, by rw [hi, BitVec.toNat_add, zextByte_toNat], hrest⟩

/-- Five times a byte is at most 1275, so the 16-bit product does not wrap (47_index_memory.md R95). -/
theorem glyphAddress_toNat (b : Byte) : (glyphAddress b).toNat = b.toNat * 5 := by
  have : b.toNat < 256 := b.isLt
  rw [glyphAddress, BitVec.toNat_mul, zextByte_toNat]
  exact Nat.mod_eq_of_lt (by simp; omega)

/-- Settles O44: one write of the glyph address to `I`. -/
theorem fontAddressIsFiveTimesTheByte : Obligations.FontAddressIsFiveTimesTheByte := by
  intro x s
  obtain ⟨t, he, hi, hrest⟩ := writesIndex_of_exec_eq (i := .font x) (s := s) rfl
  exact ⟨⟨t, he, by rw [hi, glyphAddress_toNat], hrest⟩,
    hasEncoding_of_wordXNN_low 0xF x 0x29 rfl (decodeOfEncodeIsTheInstruction (.font x) rfl)⟩

/-- The sixteen glyphs stand one after the other in memory as reset leaves it (20_memory.md R30). -/
theorem readList_reset_glyph (d : Fin 16) :
    State.reset.mem.readList (d.val * 5) 5 = (fontTable.drop (d.val * 5)).take 5 := by
  revert d
  decide

/-- Settles O45: FONT points at five times the digit, where that digit's glyph stands. -/
theorem fontPointsAtTheGlyph : Obligations.FontPointsAtTheGlyph := by
  intro x s hx
  obtain ⟨⟨t, he, hi, -⟩, -⟩ := fontAddressIsFiveTimesTheByte x s
  exact ⟨t, he, hi ▸ readList_reset_glyph ⟨(s.reg x).toNat, hx⟩⟩

/-! ## Result and flag (43_alu.md R69) -/

theorem flagByte_decide_toNat (p : Prop) [Decidable p] : (flagByte (decide p)).toNat = if p then 1 else 0 := by
  by_cases h : p <;> simp [flagByte, h]

/-- An instruction whose meaning is a result, a flag and then `advance`: the result is lost only where the flag wins. -/
theorem writesResultFlag_of_exec_eq {i : Instr} {s : State} {x : Reg} {r : Byte} {f : Bool} {n m : Nat}
    (he : exec i s = .next (s.setResultFlag x r f).advance) (hr : r.toNat = n) (hf : (flagByte f).toNat = m) :
    ∃ t, exec i s = .next t ∧ (x ≠ vf → (t.reg x).toNat = n) ∧ (t.reg vf).toNat = m ∧ PcPlus 2 s t ∧
      SameExcept (fun p => p = .pc ∨ p = .reg x ∨ p = .reg vf) s t := by
  refine ⟨_, he, fun hx => ?_, ?_, pcPlus_advance rfl, sameExcept_advance (s.sameExcept_setResultFlag x r f)⟩
  · rw [State.advance_reg, State.setResultFlag_reg, if_neg hx, if_pos rfl, hr]
  · rw [State.advance_reg, State.setResultFlag_reg, if_pos rfl, hf]

/-- Settles O27: the carry is the test that the true sum exceeds 255. -/
theorem addSetsCarry : Obligations.AddSetsCarry := fun _ _ _ =>
  writesResultFlag_of_exec_eq rfl (BitVec.toNat_add _ _) (flagByte_decide_toNat _)

theorem byte_sub_toNat (a b : Byte) : (a - b).toNat = (a.toNat + 256 - b.toNat) % 256 := by
  have : b.toNat < 256 := b.isLt
  rw [BitVec.toNat_sub]
  congr 1
  omega

/-- Settles O28: the flag is the strict comparison of minuend and subtrahend. -/
theorem subtractSetsStrictNotBorrow : Obligations.SubtractSetsStrictNotBorrow := fun _ _ _ =>
  ⟨writesResultFlag_of_exec_eq rfl (byte_sub_toNat _ _) (flagByte_decide_toNat _),
    writesResultFlag_of_exec_eq rfl (byte_sub_toNat _ _) (flagByte_decide_toNat _)⟩

theorem byte_shiftRight_one_toNat (a : Byte) : (a >>> 1).toNat = a.toNat / 2 := by
  rw [BitVec.toNat_ushiftRight, Nat.shiftRight_eq_div_pow]

theorem byte_shiftLeft_one_toNat (a : Byte) : (a <<< 1).toNat = a.toNat * 2 % 256 := by
  rw [BitVec.toNat_shiftLeft, Nat.shiftLeft_eq]

/-- A bit as a flag is that binary digit of the byte. -/
theorem flagByte_getLsbD_toNat (a : Byte) (k : Nat) : (flagByte (a.getLsbD k)).toNat = a.toNat / 2 ^ k % 2 := by
  rw [← BitVec.testBit_toNat, Nat.testBit_eq_decide_div_mod_eq, flagByte_decide_toNat]
  split <;> omega

theorem flagByte_lowBit_toNat (a : Byte) : (flagByte (lowBit a)).toNat = a.toNat % 2 := by
  rw [lowBit, flagByte_getLsbD_toNat, pow_zero, Nat.div_one]

theorem flagByte_highBit_toNat (a : Byte) : (flagByte (highBit a)).toNat = a.toNat / 128 := by
  have : a.toNat < 256 := a.isLt
  rw [highBit, flagByte_getLsbD_toNat]
  omega

/-- Settles O29: a shift halves or doubles the byte, and the flag is the remainder or the quotient that is lost. -/
theorem shiftsMoveOneBitToFlag : Obligations.ShiftsMoveOneBitToFlag := fun _ _ _ =>
  ⟨writesResultFlag_of_exec_eq rfl (byte_shiftRight_one_toNat _) (flagByte_lowBit_toNat _),
    writesResultFlag_of_exec_eq rfl (byte_shiftLeft_one_toNat _) (flagByte_highBit_toNat _)⟩

theorem flagByte_eq_zero_or_one (f : Bool) : flagByte f = 0 ∨ flagByte f = 1 := by
  cases f
  · exact .inl rfl
  · exact .inr rfl

theorem flag_of_resultFlag {i : Instr} {s t : State} {x : Reg} {r : Byte} {f : Bool} (h : exec i s = .next t)
    (he : exec i s = .next (s.setResultFlag x r f).advance) : t.reg vf = 0 ∨ t.reg vf = 1 := by
  cases h.symm.trans he
  rw [State.advance_reg, State.setResultFlag_reg, if_pos rfl]
  exact flagByte_eq_zero_or_one f

/-- Settles O30: the last write to VF of each of the six is a flag byte; a DRW that faults is no longer in EXEC. -/
theorem flagIsZeroOrOne : Obligations.FlagIsZeroOrOne := by
  intro i s t hi _ h ht
  cases i with
  | adc x y => exact flag_of_resultFlag h rfl
  | sub x y => exact flag_of_resultFlag h rfl
  | srh x y => exact flag_of_resultFlag h rfl
  | subn x y => exact flag_of_resultFlag h rfl
  | shl x y => exact flag_of_resultFlag h rfl
  | drw x y n =>
    rcases execDrw_cases x y n s with ⟨-, -, fb, e, -⟩ | ⟨-, e⟩ | ⟨-, idx, -, e⟩ <;> cases h.symm.trans e
    · simpa [State.drawn] using flagByte_eq_zero_or_one _
    · cases ht
    · cases ht
  | _ => cases hi

end Sys2Proof.Machine
end

section
/-! PROOFS. DRW (44_display.md R80 to R82): the cells a sprite covers are the pixels DRW plots, what a draw that meets no
fault does to them, and which fault the others raise. -/

namespace Sys2Proof.Machine

open Sys2Proof.Safety

/-- The cells a sprite covers are the pixels DRW plots. -/
theorem covers_iff_mem_drwPixels {s : State} {x y : Reg} {n : Nibble} {c : Nat} :
    Covers s x y n c ↔ c ∈ drwPixels x y n s := by
  simp only [Covers, SpriteBit, spriteIndex, mem_drwPixels, and_assoc]

/-- DRW of a drawable sprite draws: the covered cells are flipped, and the flag tells whether one of them was set. -/
theorem execDrw_of_drawable {s : State} {x y : Reg} {n : Nibble} (h : Drawable s x y n) :
    ∃ fb hit, exec (.drw x y n) s = .next (s.drawn fb hit) ∧
      (∀ c, Covers s x y n c → fbGet fb c = !(fbGet s.fb c)) ∧
      (∀ c, ¬ Covers s x y n c → fbGet fb c = fbGet s.fb c) ∧
      (hit = true ↔ ∃ c, Covers s x y n c ∧ fbGet s.fb c = true) := by
  obtain ⟨hmem, hcells⟩ := h
  simp only [covers_iff_mem_drwPixels] at hcells ⊢
  rcases execDrw_cases x y n s with ⟨-, -, fb, e, hfb⟩ | ⟨hout, -⟩ | ⟨-, idx, hfind, -⟩
  · exact ⟨fb, _, e, fun c hc => by simp [hfb, hc], fun c hc => by simp [hfb, hc], List.any_eq_true⟩
  · omega
  · have hlt : idx < 2048 := hcells idx (List.mem_of_find?_eq_some hfind)
    have hge : 2048 ≤ idx := by simpa using List.find?_some hfind
    omega

theorem State.drawn_reg_vf (s : State) (fb : Framebuffer) (hit : Bool) : (s.drawn fb hit).reg vf = flagByte hit := by
  simp [State.drawn]

theorem State.drawn_fb (s : State) (fb : Framebuffer) (hit : Bool) : (s.drawn fb hit).fb = fb := rfl

/-- Settles O32: the draw's cells and flag, with the row of DRW in the access table as the frame. -/
theorem drawFlipsTheCoveredCells : Obligations.DrawFlipsTheCoveredCells := by
  intro x y n s h
  obtain ⟨fb, hit, e, hcov, hnot, hhit⟩ := execDrw_of_drawable h
  refine ⟨_, e, fun c => ⟨hcov c, hnot c⟩, fun hset => ?_, fun hclear => ?_, rfl, pcPlus_advance rfl,
    (goesOn_drw x y n s fb hit).frame⟩
  · rw [State.drawn_reg_vf, hhit.2 hset]
    rfl
  · have hno : hit = false := Bool.eq_false_iff.2 fun hh => by
      obtain ⟨c, hc, hc1⟩ := hhit.1 hh
      exact absurd ((hclear c hc).symm.trans hc1) nofun
    rw [State.drawn_reg_vf, hno]
    rfl

/-- Settles O33: the bytes of the sprite are read before a pixel is plotted. -/
theorem drawOutsideMemoryFaults : Obligations.DrawOutsideMemoryFaults := by
  intro x y n s hn hout
  rcases execDrw_cases x y n s with ⟨hin, -⟩ | ⟨-, e⟩ | ⟨hin, -⟩
  · omega
  · exact ⟨_, e, s.takesFault_haltWith _⟩
  · omega

/-- The first pixel of DRW past the last cell, in row-major order. -/
theorem find_drwPixels {s : State} {x y : Reg} {n : Nibble} {row col : Nat} (hbit : SpriteBit s n row col)
    (hbad : Config.fbSize ≤ spriteIndex s x y row col)
    (hfirst : ∀ row' col', SpriteBit s n row' col' → row' < row ∨ (row' = row ∧ col' < col) →
      spriteIndex s x y row' col' < Config.fbSize) :
    (drwPixels x y n s).find? (fun c => decide (2048 ≤ c)) = some (spriteIndex s x y row col) := by
  obtain ⟨hrow, hcol, hset⟩ := hbit
  have hlen : row < (s.mem.readList s.i.toNat n.toNat).length := by simpa using hrow
  rw [spriteIndex, drwPixels, find_spritePixels (row0 := 0) hlen hcol (by simpa using hset)
    (by simpa [spriteIndex, Config.fbSize] using hbad), Nat.zero_add]
  intro row' col' hlen' hcol' hbefore hset'
  have := hfirst row' col' ⟨by simpa using hlen', hcol', by simpa using hset'⟩ hbefore
  simpa [spriteIndex, Config.fbSize] using this

/-- Settles O34: the plotting stops at that pixel, and the fault discards what was plotted before. -/
theorem drawPastTheLastCellFaults : Obligations.DrawPastTheLastCellFaults := by
  intro x y n s row col hmem hbit hbad hfirst
  have hfind := find_drwPixels hbit hbad hfirst
  rcases execDrw_cases x y n s with ⟨-, hall, -⟩ | ⟨hout, -⟩ | ⟨-, idx, hidx, e⟩
  · exact absurd (hall _ (List.mem_of_find?_eq_some hfind)) (Nat.not_lt.2 hbad)
  · omega
  · cases hfind.symm.trans hidx
    exact ⟨_, e, s.takesFault_haltWith _⟩

/-- A sprite with the same place, address and bytes covers the same cells. -/
theorem covers_congr {s t : State} {x y : Reg} (n : Nibble) (hx : t.reg x = s.reg x) (hy : t.reg y = s.reg y)
    (hi : t.i = s.i) (hm : t.mem = s.mem) : Covers t x y n = Covers s x y n := by
  funext c
  simp only [Covers, SpriteBit, spriteIndex, hx, hy, hi, hm]

/-- Settles O35: the second draw flips the same cells back, and finds set what the first one set. -/
theorem drawingTwiceRestoresTheFramebuffer : Obligations.DrawingTwiceRestoresTheFramebuffer := by
  intro x y n s t h ht hx hy
  obtain ⟨fb, hit, e, hcov, hnot, -⟩ := execDrw_of_drawable h
  cases ht.symm.trans e
  have hsame := covers_congr n hx hy (s := s) rfl rfl
  have hagain : Drawable (s.drawn fb hit) x y n := ⟨h.1, hsame ▸ h.2⟩
  obtain ⟨fb', hit', e', hcov', hnot', hhit'⟩ := execDrw_of_drawable hagain
  rw [hsame] at hcov' hnot' hhit'
  refine ⟨_, e', framebuffer_ext fun c _ => ?_, fun ⟨c, hc, hoff⟩ => ?_⟩
  · by_cases hc : Covers s x y n c
    · rw [State.drawn_fb, hcov' c hc, State.drawn_fb, hcov c hc, Bool.not_not]
    · rw [State.drawn_fb, hnot' c hc, State.drawn_fb, hnot c hc]
  · have hset : fbGet (s.drawn fb hit).fb c = true := by rw [State.drawn_fb, hcov c hc, hoff, Bool.not_false]
    rw [State.drawn_reg_vf, hhit'.2 ⟨c, hc, hset⟩]
    rfl

end Sys2Proof.Machine
end

section
/-! PROOFS. The key skips and the key wait (45_keys.md R84 to R88). -/

namespace Sys2Proof.Machine

open Sys2Proof.Safety

/-! ## The key skips -/

/-- Settles O36: the key operand is the key itself, which SKP releases only when it skips. -/
theorem keySkips : Obligations.KeySkips := by
  intro x s k hk
  have hlt : (s.reg x).toNat < 16 := hk ▸ k.isLt
  obtain rfl : k = ⟨(s.reg x).toNat, hlt⟩ := Fin.ext hk
  constructor
  · rcases execSkp_cases x s with ⟨h, e⟩ | ⟨h, -⟩
    · refine ⟨_, e, ?_, ?_, sameExcept_mono (goesOn_skp x s h).frame ?_⟩
      · split
        · exact BitVec.toNat_add _ _
        · exact BitVec.toNat_add _ _
      · split
        · simp [State.skipIf_eq]
        · rename_i hup
          simpa [State.skipIf_eq] using Bool.eq_false_iff.2 hup
      · rintro p (hp | ⟨j, hj, hp⟩)
        · exact .inl hp
        · obtain rfl : j = ⟨(s.reg x).toNat, hlt⟩ := Fin.ext hj
          exact .inr hp
    · omega
  · rcases execSknp_cases x s with ⟨h, e⟩ | ⟨h, -⟩
    · refine ⟨_, e, ?_, s.sameExcept_skipIf _⟩
      cases s.keyDown ⟨(s.reg x).toNat, hlt⟩
      · exact s.pcPlus_skipIf (p := True) (by simp)
      · exact s.pcPlus_skipIf (p := False) (by simp)
    · omega

/-- Settles O37: the key operand faults before either skip acts. -/
theorem keyIndexAboveFifteenFaults : Obligations.KeyIndexAboveFifteenFaults := by
  intro x s hx
  constructor
  · rcases execSkp_cases x s with ⟨h, -⟩ | ⟨-, e⟩
    · omega
    · exact ⟨_, e, s.takesFault_haltWith _⟩
  · rcases execSknp_cases x s with ⟨h, -⟩ | ⟨-, e⟩
    · omega
    · exact ⟨_, e, s.takesFault_haltWith _⟩

/-! ## One turn of the wait -/

/-- The host's next event and the state after it, as `Supplies` says. -/
theorem nextEvent_of_supplies {s : State} {e : HostEvent} {es : List HostEvent} {n : Nat} (h : Supplies s e es n) :
    s.nextEvent = (e, { s with events := es, freeEvents := n }) := by
  rcases h with ⟨hev, rfl⟩ | ⟨hev, rfl, rfl, rfl⟩
  · simp [State.nextEvent, hev]
  · simp only [State.nextEvent, hev]

theorem execWkey_of_supplies {s : State} (x : Reg) {e : HostEvent} {es : List HostEvent} {n : Nat}
    (ha : s.awaitingKey = true) (h : Supplies s e es n) :
    exec (.wkey x) s = .next (receiveEvent x { s with events := es, freeEvents := n } e) := by
  show execWkey x s = _
  rw [execWkey, if_pos ha, nextEvent_of_supplies h]

theorem keyByte_toNat (k : Key) : (keyByte k).toNat = k.val := by
  have := k.isLt
  simp only [keyByte, BitVec.toNat_ofNat]
  omega

/-- What a key-down received leaves: the key index in `V[X]`, the key latched alone, `pc + 2`, and no wait. -/
theorem receiveEvent_keyDown (x : Reg) (s : State) (k : Key) :
    ((receiveEvent x s (.keyDown k)).reg x).toNat = k.val ∧
      (∀ j : Key, (receiveEvent x s (.keyDown k)).keyDown j = true ↔ j = k) ∧
      PcPlus 2 s (receiveEvent x s (.keyDown k)) ∧ (receiveEvent x s (.keyDown k)).awaitingKey = false ∧
      SameExcept (fun p => p = .pc ∨ (p = .awaitingKey ∨ p = .reg x) ∨ ∃ j, p = .key j) s
        (receiveEvent x s (.keyDown k)) := by
  refine ⟨?_, fun j => ?_, pcPlus_advance rfl, rfl, ?_⟩
  · simp [receiveEvent, keyByte_toNat]
  · simp [receiveEvent]
  · exact sameExcept_advance (sameExcept_trans (sameExcept_trans (s.sameExcept_setAwaiting false)
      (State.sameExcept_setReg _ x _)) (State.sameExcept_pressKey _ k))

theorem State.sameExcept_setEvents (s : State) (es : List HostEvent) (n : Nat) :
    SameExcept (fun p => p = .events ∨ p = .freeEvents) s { s with events := es, freeEvents := n } := by
  intro p hp
  cases p with
  | events => exact absurd (.inl rfl) hp
  | freeEvents => exact absurd (.inr rfl) hp
  | _ => rfl

/-- Settles O38: WKEY raises the level, and a waiting one takes the supplied event. -/
theorem waitKeyReceivesAKey : Obligations.WaitKeyReceivesAKey := by
  refine fun x s => ⟨fun ha => ?_, fun k es n ha h => ?_⟩
  · show execWkey x s = _
    rw [execWkey, if_neg (Bool.eq_false_iff.1 ha)]
    rfl
  · obtain ⟨hreg, hkeys, hpc, hwait, hframe⟩ := receiveEvent_keyDown x { s with events := es, freeEvents := n } k
    refine ⟨_, execWkey_of_supplies x ha h, hreg, hkeys, hpc, rfl, rfl, hwait,
      sameExcept_mono (sameExcept_trans (s.sameExcept_setEvents es n) hframe) fun p hp => ?_⟩
    tauto

/-- Settles O39: a waiting WKEY takes the supplied event. -/
theorem waitKeyQuitsOrGoesOnWaiting : Obligations.WaitKeyQuitsOrGoesOnWaiting := fun x _ _ _ ha =>
  ⟨execWkey_of_supplies x ha, execWkey_of_supplies x ha⟩

/-! ## The wait over many steps -/

/-- A WKEY into `V[X]` waits, and `update` has been called. -/
structure Waiting (x : Reg) (s : State) : Prop where
  atWkey : AtWkey s
  instr : instrAt s = .wkey x
  awaiting : s.awaitingKey = true
  started : s.started = true

/-- Taking an event that is not the end of the wait leaves the wait under way. -/
theorem Waiting.setEvents {x : Reg} {s : State} (h : Waiting x s) (es : List HostEvent) (n : Nat) :
    Waiting x { s with events := es, freeEvents := n } := ⟨h.atWkey, h.instr, h.awaiting, h.started⟩

/-- A step of a wait takes the supplied event and then performs the timer step. -/
theorem Waiting.step {x : Reg} {s : State} (h : Waiting x s) {e : HostEvent} {es : List HostEvent} {n : Nat}
    (hs : Supplies s e es n) :
    step s = .next (endCycle (receiveEvent x { s with events := es, freeEvents := n } e)) := by
  obtain ⟨⟨hexec, hf, -⟩, hi, ha, hst⟩ := h
  have hnote : noteUpdate s = s := by rw [noteUpdate, ← hst]
  have hdec : decode (wordOfBytes (s.mem.read s.pc.toNat) (s.mem.read (s.pc.toNat + 1))) = .wkey x := hi
  rw [step_cycle s hexec (.inr ha), cycle_fetched s hf, hdec, hnote, execWkey_of_supplies x ha hs]
  rfl

/-- A wait that goes on does not reach the timer step. -/
theorem endCycle_of_awaiting {s : State} (h : s.awaitingKey = true) : endCycle s = s := by
  simp [endCycle, reachesTimers, h]

theorem Waiting.step_other {x : Reg} {s : State} (h : Waiting x s) {es : List HostEvent} {n : Nat}
    (hs : Supplies s .other es n) : Machine.step s = .next { s with events := es, freeEvents := n } :=
  (h.step hs).trans (congrArg _ (endCycle_of_awaiting h.awaiting))

/-- Other events that are listed are taken one a step, and then the run goes on. -/
theorem Waiting.stepN_others {x : Reg} (d : Nat) (l : List HostEvent) :
    ∀ (j : Nat) {s : State}, Waiting x s → s.events = List.replicate j .other ++ l →
      stepN (j + d) s = stepN d { s with events := l }
  | 0, s, _, hev => by
    rw [Nat.zero_add, show l = s.events from hev.symm]
  | j + 1, s, h, hev => by
    have hs : Supplies s .other (List.replicate j .other ++ l) s.freeEvents := .inl ⟨hev, rfl⟩
    rw [Nat.add_right_comm, stepN, h.step_other hs]
    exact Waiting.stepN_others d l j (h.setEvents _ _) rfl

/-- The step of a key-down in a wait, with the one timer decrement of the whole wait. -/
theorem Waiting.step_keyDown {x : Reg} {s : State} (h : Waiting x s) {k : Key} {es : List HostEvent} {n : Nat}
    (hs : Supplies s (.keyDown k) es n) :
    Machine.step s = .next (tickTimers (receiveEvent x { s with events := es, freeEvents := n } (.keyDown k))) := by
  rw [h.step hs]
  have hrun : s.runState = .exec := h.atWkey.1
  simp [endCycle, reachesTimers, receiveEvent, hrun]

theorem sameExcept_tickTimers (s : State) : SameExcept (fun p => p = .delay ∨ p = .sound) s (tickTimers s) := by
  intro p hp
  cases p with
  | delay => exact absurd (.inl rfl) hp
  | sound => exact absurd (.inr rfl) hp
  | _ => rfl

/-- Settles O40: each other event is one step that leaves the wait under way, and the key-down is the step after them. -/
theorem waitPassesOverOtherEvents : Obligations.WaitPassesOverOtherEvents := by
  intro s x hat hi ha hst
  have hw : Waiting x s := ⟨hat, hi, ha, hst⟩
  refine ⟨fun es n => hw.step_other, fun m k rest hev => ⟨fun j hj => ?_, ?_⟩⟩
  · have hsplit : s.events = List.replicate j .other ++ (List.replicate (m - j) .other ++ .keyDown k :: rest) := by
      rw [← List.append_assoc, List.replicate_append_replicate, Nat.add_sub_cancel' hj, hev]
    refine ⟨_, hw.stepN_others 0 _ j hsplit, ha, fun p hp => ?_⟩
    cases p with
    | events => exact absurd rfl hp
    | _ => rfl
  · have hw' : Waiting x { s with events := .keyDown k :: rest } := hw.setEvents _ _
    obtain ⟨hreg, hkeys, hpc, hwait, hframe⟩ := receiveEvent_keyDown x { s with events := rest } k
    refine ⟨tickTimers (receiveEvent x { s with events := rest } (.keyDown k)), ?_, hwait, hreg, hkeys, hpc, rfl,
      tickTimers_dt_toNat _, tickTimers_st_toNat _, ?_⟩
    · rw [hw.stepN_others 1 _ m hev, stepN, hw'.step_keyDown (.inl ⟨rfl, rfl⟩)]
      rfl
    · have hev' : SameExcept (fun p => p = .events) s { s with events := rest } := fun p hp => by
        cases p with
        | events => exact absurd rfl hp
        | _ => rfl
      refine sameExcept_mono (sameExcept_trans (sameExcept_trans hev' hframe) (sameExcept_tickTimers _)) fun p hp => ?_
      tauto

end Sys2Proof.Machine
end

section
/-! PROOFS. BCD, STM and LDM (47_index_memory.md R93 to R98) and the coherence of fetch with their stores (20_memory.md
section 9). -/

namespace Sys2Proof.Machine

open Sys2Proof.Safety

/-! ## What is stored -/

theorem hundreds_toNat (b : Byte) : (BitVec.ofNat 8 (b.toNat / 100)).toNat = b.toNat / 100 :=
  (BitVec.toNat_ofNat _ _).trans (Nat.mod_eq_of_lt (Nat.lt_of_le_of_lt (Nat.div_le_self _ _) b.isLt))

theorem tens_toNat (b : Byte) : (BitVec.ofNat 8 (b.toNat / 10 % 10)).toNat = b.toNat / 10 % 10 :=
  (BitVec.toNat_ofNat _ _).trans (Nat.mod_eq_of_lt (by omega))

theorem units_toNat (b : Byte) : (BitVec.ofNat 8 (b.toNat % 10)).toNat = b.toNat % 10 :=
  (BitVec.toNat_ofNat _ _).trans (Nat.mod_eq_of_lt (by omega))

/-- BCD's digits in range are at `I`, `I + 1` and `I + 2` after it. -/
theorem execBcd_of_lt {x : Reg} {s : State} (h : s.i.toNat + 2 < Config.memSize) (hm : s.mem.wf = true) :
    ∃ t, exec (.bcd x) s = .next t ∧ GoesOn (.bcd x) s t ∧ PcPlus 2 s t ∧
      t.mem.read s.i.toNat = BitVec.ofNat 8 ((s.reg x).toNat / 100) ∧
      t.mem.read (s.i.toNat + 1) = BitVec.ofNat 8 ((s.reg x).toNat / 10 % 10) ∧
      t.mem.read (s.i.toNat + 2) = BitVec.ofNat 8 ((s.reg x).toNat % 10) := by
  rcases execBcd_cases x s with ⟨-, e⟩ | ⟨h', -⟩
  · exact ⟨_, e, goesOn_bcd x s h, pcPlus_advance rfl,
      Memory.read_writeList_inside hm (k := 0) (by simp [decimalDigits]),
      Memory.read_writeList_inside hm (k := 1) (by simp [decimalDigits]),
      Memory.read_writeList_inside hm (k := 2) (by simp [decimalDigits])⟩
  · omega

/-- STM's registers in range are at `I` and up after it. -/
theorem execStm_of_lt {x : Reg} {s : State} (h : s.i.toNat + x.val < Config.memSize) (hm : s.mem.wf = true) :
    ∃ t, exec (.stm x) s = .next t ∧ GoesOn (.stm x) s t ∧ t.i = s.i ∧ PcPlus 2 s t ∧
      ∀ r : Reg, r ≤ x → t.mem.read (s.i.toNat + r.val) = s.reg r := by
  rcases execStm_cases x s with ⟨-, e⟩ | ⟨h', -⟩
  · refine ⟨_, e, goesOn_stm x s h, rfl, pcPlus_advance rfl, fun r hr => ?_⟩
    have hlen : r.val < (regsUpTo s x).length := by
      rw [length_regsUpTo]
      exact Nat.lt_succ_of_le hr
    exact (Memory.read_writeList_inside hm hlen).trans (getElem_regsUpTo s x r.val hlen)
  · omega

/-- LDM's registers in range hold the bytes from `I` up after it. -/
theorem execLdm_of_lt {x : Reg} {s : State} (h : s.i.toNat + x.val < Config.memSize) :
    ∃ t, exec (.ldm x) s = .next t ∧ GoesOn (.ldm x) s t ∧ PcPlus 2 s t ∧
      ∀ r : Reg, r ≤ x → t.reg r = s.mem.read (s.i.toNat + r.val) := by
  rcases execLdm_cases x s with ⟨-, e⟩ | ⟨h', -⟩
  · refine ⟨_, e, goesOn_ldm x s, pcPlus_advance rfl, fun r hr => ?_⟩
    have hr' : r.val < x.val + 1 := Nat.lt_succ_of_le hr
    have hlen : (0 : Nat) ≤ r.val ∧ r.val - 0 < (s.mem.readList s.i.toNat (x.val + 1)).length := by simpa using hr'
    exact (get_loadRegs _ s.v 0 r).trans ((dif_pos hlen).trans (Memory.getElem_readList _ _ _ _ _))
  · omega

/-! ## The statements -/

/-- Settles O46: a digit is below 256, so the byte that is stored has its value. -/
theorem decimalDigitsAreStored : Obligations.DecimalDigitsAreStored := by
  refine fun x s => ⟨fun h hm => ?_, fun h => ?_⟩
  · obtain ⟨t, e, hg, hpc, h100, h10, h1⟩ := execBcd_of_lt (x := x) h hm
    refine ⟨t, e, ?_, ?_, ?_, hpc, hg.frame⟩
    · rw [h100, hundreds_toNat]
    · rw [h10, tens_toNat]
    · rw [h1, units_toNat]
  · rcases execBcd_cases x s with ⟨h', -⟩ | ⟨-, e⟩
    · omega
    · exact ⟨_, e, s.takesFault_haltWith _⟩

/-- Settles O47: a store in range goes on, with the row of STM in the access table as the frame. -/
theorem registersAreStored : Obligations.RegistersAreStored := by
  refine fun x s => ⟨fun h hm => ?_, fun h => ?_⟩
  · obtain ⟨t, e, hg, -, hpc, hregs⟩ := execStm_of_lt h hm
    exact ⟨t, e, hregs, hpc, hg.frame⟩
  · rcases execStm_cases x s with ⟨h', -⟩ | ⟨-, e⟩
    · omega
    · exact ⟨_, e, s.takesFault_haltWith _⟩

/-- Settles O48: a load in range goes on, with the row of LDM in the access table as the frame. -/
theorem registersAreLoaded : Obligations.RegistersAreLoaded := by
  refine fun x s => ⟨fun h => ?_, fun h => ?_⟩
  · obtain ⟨t, e, hg, hpc, hregs⟩ := execLdm_of_lt h
    exact ⟨t, e, hregs, hpc, hg.frame⟩
  · rcases execLdm_cases x s with ⟨h', -⟩ | ⟨-, e⟩
    · omega
    · exact ⟨_, e, s.takesFault_haltWith _⟩

/-- Settles O49: what LDM reads at each address is what STM stored there. -/
theorem loadAfterStoreRestoresRegisters : Obligations.LoadAfterStoreRestoresRegisters := by
  intro x s v' h hm
  obtain ⟨t, e, -, hi, -, hstored⟩ := execStm_of_lt h hm
  have h' : ({ t with v := v' } : State).i.toNat + x.val < Config.memSize := by
    rw [show ({ t with v := v' } : State).i = s.i from hi]
    exact h
  obtain ⟨u, e', -, -, hloaded⟩ := execLdm_of_lt h'
  refine ⟨t, u, e, e', fun r hr => ?_⟩
  rw [hloaded r hr, ← hstored r hr, ← hi]

/-- A fetch in range reads the two bytes at `pc`, the lower address in the high half. -/
theorem fetch_of_lt {s : State} {hi lo : Byte} (h : s.pc.toNat + 1 < Config.memSize)
    (hhi : s.mem.read s.pc.toNat = hi) (hlo : s.mem.read (s.pc.toNat + 1) = lo) : fetch s = .ok (hi ++ lo) := by
  rcases s.memReadWord_cases s.pc.toNat with ⟨-, e⟩ | ⟨h', -⟩
  · rw [fetch, e, hhi, hlo, wordOfBytes]
  · omega

theorem bytes_append_toNat (hi lo : Byte) : (hi ++ lo).toNat = hi.toNat * 256 + lo.toNat := toNat_append_fields hi lo

/-- Settles O50: fetch reads the two addresses the pair was stored at. -/
theorem storedWordIsFetched : Obligations.StoredWordIsFetched := by
  constructor
  · intro x r s a h hm hr16 hrx ha
    obtain ⟨t, e, -, -, -, hstored⟩ := execStm_of_lt h hm
    have hhi : t.mem.read a.toNat = s.reg r := ha ▸ hstored r (Fin.le_def.2 (by omega))
    have hlo : t.mem.read (a.toNat + 1) = s.reg ⟨r.val + 1, hr16⟩ := ha ▸ hstored ⟨r.val + 1, hr16⟩ hrx
    have hlt : a.toNat + 1 < Config.memSize := by omega
    exact ⟨t, e, fetch_of_lt (s := { t with pc := a }) hlt hhi hlo⟩
  · intro x s a h hm
    obtain ⟨t, e, -, -, h100, h10, h1⟩ := execBcd_of_lt (x := x) h hm
    refine ⟨t, e, fun ha => ?_, fun ha => ?_⟩
    · have hlt : a.toNat + 1 < Config.memSize := by omega
      refine ⟨_, fetch_of_lt (s := { t with pc := a }) hlt (ha ▸ h100) (ha ▸ h10), ?_⟩
      rw [bytes_append_toNat, hundreds_toNat, tens_toNat]
    · have hlt : a.toNat + 1 < Config.memSize := by omega
      have hnext : a.toNat + 1 = s.i.toNat + 2 := by omega
      refine ⟨_, fetch_of_lt (s := { t with pc := a }) hlt (ha ▸ h10) (hnext ▸ h1), ?_⟩
      rw [bytes_append_toNat, tens_toNat, units_toNat]

end Sys2Proof.Machine
end

section
/-! PROOFS. The step: the cycle and its timers, and the host's transactions between cycles (30_encoding.md R38,
60_exceptions.md R104, R108 and R112 to R115, 70_reset_and_hazards.md R117). -/

namespace Sys2Proof.Machine

open Sys2Proof.Safety

/-! ## The cycle -/

/-- A step that is a cycle runs it on a state that differs at most in the pending transactions. -/
theorem step_of_cycleFrom {s u : State} (h : CycleFrom s u) :
    step s = cycle u ∧ u = { s with requests := u.requests } := by
  obtain ⟨hexec, ⟨ha, rfl⟩ | ⟨ha, hreq, rfl⟩ | ⟨ha, rest, hreq, rfl⟩⟩ := h
  · exact ⟨step_cycle u hexec (.inr ha), rfl⟩
  · exact ⟨step_cycle u hexec (.inl hreq), rfl⟩
  · have hm : midWait s = false := by simp [midWait, ha]
    refine ⟨?_, rfl⟩
    rw [step_perform s hm hreq]
    simp only [perform, update, hexec]

/-- The timer step follows unless WKEY waits or a runtime fault was taken. -/
theorem endCycle_eq_ite (t : State) :
    endCycle t = if t.awaitingKey = true ∨ Faulted t then t else { t with dt := t.dt - 1, st := t.st - 1 } := by
  have hreach : reachesTimers t = true ↔ ¬ (t.awaitingKey = true ∨ Faulted t) := by
    simp [reachesTimers, Faulted, imp_iff_not_or]
  by_cases h : t.awaitingKey = true ∨ Faulted t
  · rw [if_pos h, endCycle, if_neg (mt hreach.1 (not_not.2 h))]
  · rw [if_neg h, endCycle, if_pos (hreach.2 h)]
    rfl

/-- Settles O7: the cycle fetches the two bytes at `pc`, which the pending transactions do not touch. -/
theorem stepRunsTheDecodedInstruction : Obligations.StepRunsTheDecodedInstruction := by
  intro s u i hc hf hd
  obtain ⟨hstep, hu⟩ := step_of_cycleFrom hc
  have hdec : decode (wordOfBytes (u.mem.read u.pc.toNat) (u.mem.read (u.pc.toNat + 1))) = i := by
    rw [hu]
    simpa [decodeBytes] using hd
  have hfu : u.pc.toNat + 2 ≤ Config.memSize := by
    rw [hu]
    exact hf
  rw [hstep, cycle_fetched u hfu, hdec, noteUpdate]
  cases exec i { u with started := true } with
  | next t => exact congrArg _ (endCycle_eq_ite t)
  | fault f => rfl
  | refused r => rfl

/-- Settles O8: the fault of the fetch names the lowest address of the two that does not exist. -/
theorem fetchOutsideMemoryFaults : Obligations.FetchOutsideMemoryFaults := by
  intro s u hc hf
  obtain ⟨hstep, hu⟩ := step_of_cycleFrom hc
  have hpc : u.pc = s.pc := by rw [hu]
  have hout : Config.memSize < u.pc.toNat + 2 := by
    rw [hpc]
    exact Nat.lt_succ_of_le (Nat.not_lt.1 hf)
  have haddr : (if s.pc.toNat < Config.memSize then s.pc.toNat + 1 else s.pc.toNat) = max u.pc.toNat Config.memSize := by
    rw [hpc] at hout ⊢
    split <;> omega
  rw [haddr]
  exact ⟨_, hstep.trans (cycle_unfetched u hout), State.takesFault_haltWith _ _⟩

/-! ## The timers -/

/-- Only STDT writes the delay timer. -/
theorem dt_of_exec {i : Instr} {s t : State} (h : exec i s = .next t) (hi : ∀ x, i ≠ .stdt x) : t.dt = s.dt := by
  refine instructionsWriteOnlyTheirRow i s t h .delay ?_
  cases i with
  | stdt x => exact absurd rfl (hi x)
  | _ => simp [mayWrite, haltPart]

/-- Only STST writes the sound timer. -/
theorem st_of_exec {i : Instr} {s t : State} (h : exec i s = .next t) (hi : ∀ x, i ≠ .stst x) : t.st = s.st := by
  refine instructionsWriteOnlyTheirRow i s t h .sound ?_
  cases i with
  | stst x => exact absurd rfl (hi x)
  | _ => simp [mayWrite, haltPart]

/-- An execute step that ends in a wait or in a runtime fault leaves both timers as they were. -/
theorem timers_of_abandoned {i : Instr} {s t : State} (hexec : s.runState = .exec)
    (hwait : s.awaitingKey = true → ∃ x, i = .wkey x) (h : exec i s = .next t)
    (ht : t.awaitingKey = true ∨ Faulted t) : t.dt = s.dt ∧ t.st = s.st := by
  rcases ht with ha | hf
  · obtain ⟨x, rfl⟩ : ∃ x, i = .wkey x := by
      by_contra hi
      rw [(answer_of_exec h).awaitingKey fun x e => hi ⟨x, e⟩] at ha
      exact hi (hwait ha)
    exact ⟨dt_of_exec h nofun, st_of_exec h nofun⟩
  · obtain ⟨f, -, -, -, hframe⟩ := runtimeFaultsArePrecise i s t hexec h hf
    exact ⟨hframe .delay (by simp [haltPart]), hframe .sound (by simp [haltPart])⟩

/-- What a completed execute step and the timer step leave in the timers. -/
theorem timers_of_completed {i : Instr} {s t : State} (h : exec i s = .next t) :
    (∀ x, i = .stdt x → (t.dt - 1#8).toNat = ((s.reg x).toNat + 255) % 256) ∧
      (∀ x, i = .stst x → (t.st - 1#8).toNat = ((s.reg x).toNat + 255) % 256) ∧
      ((∀ x, i ≠ .stdt x) → (t.dt - 1#8).toNat = (s.dt.toNat + 255) % 256) ∧
      ((∀ x, i ≠ .stst x) → (t.st - 1#8).toNat = (s.st.toNat + 255) % 256) := by
  refine ⟨?_, ?_, fun hi => ?_, fun hi => ?_⟩
  · rintro x rfl
    cases h
    exact byte_sub_one_toNat _
  · rintro x rfl
    cases h
    exact byte_sub_one_toNat _
  · rw [byte_sub_one_toNat, dt_of_exec h hi]
  · rw [byte_sub_one_toNat, st_of_exec h hi]

/-- Settles O42: execute leaves the timers alone but for what STDT and STST write, and the timer step follows or not by
what execute left. -/
theorem timersCountCompletedCycles : Obligations.TimersCountCompletedCycles := by
  intro s u t i hc hf hi hwait hstep
  obtain ⟨-, hu⟩ := step_of_cycleFrom hc
  obtain ⟨v, hv, -⟩ := exec_answer i { u with started := true }
  rw [stepRunsTheDecodedInstruction s u i hc hf (by rw [← hi]; rfl), hv] at hstep
  have ht := Host.Outcome.next.inj hstep
  have hw : u.awaitingKey = true → ∃ x, i = .wkey x := by
    rw [hu, ← hi]
    exact fun ha => (hwait ha).2.2
  have hexec : u.runState = .exec := by
    rw [hu]
    exact hc.1
  have hkept : u.dt = s.dt ∧ u.st = s.st ∧ u.reg = s.reg := by
    rw [hu]
    exact ⟨rfl, rfl, rfl⟩
  obtain ⟨hdt, hst, hreg⟩ := hkept
  rw [← hdt, ← hst, ← hreg]
  by_cases hab : v.awaitingKey = true ∨ Faulted v
  · rw [if_pos hab] at ht
    subst ht
    exact ⟨fun _ => timers_of_abandoned (s := { u with started := true }) hexec hw hv hab,
      fun hna hnf => absurd hab (not_or.2 ⟨Bool.eq_false_iff.1 hna, hnf⟩)⟩
  · rw [if_neg hab] at ht
    subst ht
    exact ⟨fun hab' => absurd hab' hab, fun _ _ => timers_of_completed (s := { u with started := true }) hv⟩

/-! ## The host's transactions -/

theorem midWait_of_runState_ne {s : State} (h : s.runState ≠ .exec) : midWait s = false := by
  simp [midWait, h]

/-- With no wait under way and no transaction pending the host calls `update`. -/
theorem step_update {s : State} (hm : midWait s = false) (hq : s.requests = []) : step s = update s := by
  simp [step, turn, hm, hq]

theorem update_pause {s : State} (h : s.runState = .pause) : update s = .next (noteUpdate s) := by
  simp only [update, h]

theorem perform_in_halt {r : HostRequest} {s : State} (h : s.runState = .halt) (hr : r ≠ .reset) :
    perform r s = .next s := by
  cases r with
  | reset => exact absurd rfl hr
  | update => simp only [perform, update, h]
  | load bytes offset => exact if_pos h
  | setKey n => exact if_pos h
  | quit => exact if_pos h
  | pause => exact if_neg (by simp [h])
  | resume => exact if_neg (by simp [h])

theorem sameExcept_hostReset (s : State) : SameExcept
    (fun p => p = .outputs ∨ p = .draws ∨ p = .events ∨ p = .freeEvents ∨ p = .requests) State.reset
    { State.reset with
      outputs := s.outputs, draws := s.draws, events := s.events, freeEvents := s.freeEvents, requests := s.requests } := by
  intro p hp
  cases p with
  | outputs => simp at hp
  | draws => simp at hp
  | events => simp at hp
  | freeEvents => simp at hp
  | requests => simp at hp
  | _ => rfl

/-- Settles O9: in HALT no wait is under way, so the step is a transaction, and only `reset` does anything there. -/
theorem haltIsLeftOnlyByReset : Obligations.HaltIsLeftOnlyByReset := by
  intro s h
  have hm : midWait s = false := midWait_of_runState_ne (by simp [h])
  refine ⟨fun hq => ?_, fun r rest hq hr => ?_, fun rest hq => ?_⟩
  · rw [step_update hm hq]
    simp only [update, h]
  · rw [step_perform s hm hq]
    exact perform_in_halt h hr
  · exact ⟨_, step_perform s hm hq, rfl, rfl, rfl, sameExcept_hostReset { s with requests := rest }⟩

/-- Settles O13: the transaction `reset` does not look at the run state. -/
theorem hostResetRestoresEverything : Obligations.HostResetRestoresEverything := fun s rest hm hq =>
  ⟨_, step_perform s hm hq, sameExcept_hostReset { s with requests := rest }, rfl, rfl, rfl, rfl, rfl⟩

/-- Settles O10: each clause is one transaction in one run state. -/
theorem pauseResumeAndQuitOfTheHost : Obligations.PauseResumeAndQuitOfTheHost := by
  intro s rest hm
  refine ⟨fun hr hq => (step_update hm hq).trans (update_pause hr), fun hr hq => ?_, fun hr hq => ?_, fun hr hq => ?_,
    fun hr hq => ?_, fun hr hq => ?_, fun hr hq => ?_⟩ <;> rw [step_perform s hm hq]
  · exact update_pause hr
  · exact if_pos hr
  · exact if_neg (by simp [hr])
  · exact if_pos hr
  · exact if_neg (by simp [hr])
  · exact if_neg hr

/-- Settles O11: outside HALT `set_key` presses the key, or refuses the number. -/
theorem setKeyLatchesExactlyOneKey : Obligations.SetKeyLatchesExactlyOneKey := by
  intro s n rest hm hr hq
  rw [step_perform s hm hq]
  have hset : perform (.setKey n) { s with requests := rest } =
      if h : n < 16 then .next (State.pressKey { s with requests := rest } ⟨n, h⟩) else .refused (.noSuchKey n) :=
    if_neg hr
  rw [hset]
  refine ⟨fun h => ⟨_, dif_pos h, fun j => by simp, rfl, fun p hp => ?_⟩, fun h => dif_neg (by omega)⟩
  cases p with
  | requests => simp at hp
  | key j => simp at hp
  | _ => rfl

/-- Settles O12: outside HALT `load` stores the bytes, or refuses them. -/
theorem loadCopiesTheImage : Obligations.LoadCopiesTheImage := by
  intro s bytes offset rest hm hr hwf hq
  rw [step_perform s hm hq]
  have hload : perform (.load bytes offset) { s with requests := rest } =
      if s.started = true then .refused .loadAfterStart
      else if offset + bytes.length ≤ Config.memSize then
        .next { s with requests := rest, mem := s.mem.writeList offset bytes }
      else .refused .loadDoesNotFit := if_neg hr
  rw [hload]
  refine ⟨fun hs hle => ⟨{ s with requests := rest, mem := s.mem.writeList offset bytes }, ?_,
    fun k hk => Memory.read_writeList_inside hwf hk, rfl, ?_⟩, fun hs hlt => ?_, fun hs => if_pos hs⟩
  · rw [if_neg (Bool.eq_false_iff.1 hs), if_pos hle]
  · have hreq : SameExcept (fun p => p = .requests) s { s with requests := rest } := fun p hp => by
      cases p with
      | requests => exact absurd rfl hp
      | _ => rfl
    exact sameExcept_trans hreq (State.sameExcept_store _ offset bytes)
  · rw [if_neg (Bool.eq_false_iff.1 hs), if_neg (Nat.not_le.2 hlt)]

/-! ## Reset -/

/-- Settles O14: every register, entry and key is one of sixteen, and a clear framebuffer has no cell set. -/
theorem resetValuesOfTheRegisters : Obligations.ResetValuesOfTheRegisters :=
  ⟨by decide, rfl, rfl, rfl, by decide, fbGet_fbClear, rfl, rfl, by decide, rfl, rfl, rfl, rfl⟩

/-- Settles O15: memory that lists nothing reads as the font table and then zeroes. -/
theorem resetMemoryIsFontThenZero : Obligations.ResetMemoryIsFontThenZero :=
  ⟨by decide, by decide, fun a ha => if_neg (Nat.not_lt.2 ha)⟩

end Sys2Proof.Machine
end

section
/-! PROOFS. What execute does not read: the outputs emitted before and the sound timer (44_display.md R83, 10_state.md
section 7). Both are changed at once, so that one case analysis serves both statements. -/

namespace Sys2Proof.Machine

open Sys2Proof.Safety

/-- The state with other outputs emitted before and another sound timer. -/
def State.setUnread (s : State) (o : List Output) (b : Byte) : State := { s with outputs := o, st := b }

/-- From `s` the operation `i` leaves `t` and emits `e`, and from `s` with other outputs and another sound timer it leaves
the same but for these two, and emits the same: the sound timer stays as given, or `i` writes it. -/
def Blind (i : Instr) (s t : State) : Prop :=
  ∃ e, t.outputs = s.outputs ++ e ∧
    ((t.st = s.st ∧ ∀ o b, exec i (s.setUnread o b) = .next (t.setUnread (o ++ e) b)) ∨
      ∀ o b, exec i (s.setUnread o b) = .next (t.setUnread (o ++ e) t.st))

/-- An operation that emits nothing and leaves the sound timer alone. -/
theorem blind_of_silent {i : Instr} {s t : State} (hout : t.outputs = s.outputs) (hst : t.st = s.st)
    (ht : ∀ o b, exec i (s.setUnread o b) = .next (t.setUnread o b)) : Blind i s t :=
  ⟨[], by rw [hout, List.append_nil], .inl ⟨hst, fun o b => by rw [List.append_nil, ht]⟩⟩

/-- An operation that enters HALT and emits the report alone. -/
theorem blind_of_haltWith {i : Instr} {s u : State} {c : HaltCause} (hout : u.outputs = s.outputs) (hst : u.st = s.st)
    (hu : ∀ o b, exec i (s.setUnread o b) = .next ((u.setUnread o b).haltWith c)) : Blind i s (u.haltWith c) :=
  ⟨[.report c], by rw [← hout]; rfl, .inl ⟨hst, hu⟩⟩

theorem blind_of_skipIf {i : Instr} {s : State} {c : Bool}
    (h : ∀ o b, exec i (s.setUnread o b) = .next ((s.setUnread o b).skipIf c)) : Blind i s (s.skipIf c) := by
  simp only [State.skipIf_eq] at h ⊢
  exact blind_of_silent rfl rfl h

/-- An operation that goes on where `p` holds, emitting nothing, and raises a fault where `q` holds, none of which looks at
the outputs or the sound timer. -/
theorem blind_of_cases {i : Instr} {s t : State} {p q : State → Prop} {g : ∀ u, p u → State} {f : State → Fault}
    (hcases : ∀ u, (∃ hp : p u, exec i u = .next (g u hp)) ∨ (q u ∧ exec i u = u.raise (f u)))
    (hpq : ∀ u, p u → ¬ q u) (h : exec i s = .next t)
    (hp : ∀ o b, p (s.setUnread o b) = p s := by exact fun _ _ => rfl)
    (hq : ∀ o b, q (s.setUnread o b) = q s := by exact fun _ _ => rfl)
    (hg : ∀ o b hs hu, g (s.setUnread o b) hu = (g s hs).setUnread o b := by exact fun _ _ _ _ => rfl)
    (hf : ∀ o b, f (s.setUnread o b) = f s := by exact fun _ _ => rfl)
    (hout : ∀ hs, (g s hs).outputs = s.outputs := by exact fun _ => rfl)
    (hst : ∀ hs, (g s hs).st = s.st := by exact fun _ => rfl) : Blind i s t := by
  rcases hcases s with ⟨hs, e⟩ | ⟨hs, e⟩ <;> cases h.symm.trans e
  · refine blind_of_silent (hout hs) (hst hs) fun o b => ?_
    rcases hcases (s.setUnread o b) with ⟨hu, e'⟩ | ⟨hu, -⟩
    · rw [e', hg o b hs hu]
    · exact absurd (hq o b ▸ hu) (hpq s hs)
  · refine blind_of_haltWith rfl rfl fun o b => ?_
    rcases hcases (s.setUnread o b) with ⟨hu, -⟩ | ⟨-, e'⟩
    · exact absurd hs (hpq s (hp o b ▸ hu))
    · rw [e', hf, State.raise_eq]

/-- `NextEvent()` looks at neither. -/
theorem State.nextEvent_setUnread (s : State) (o : List Output) (b : Byte) :
    (s.setUnread o b).nextEvent = (s.nextEvent.1, s.nextEvent.2.setUnread o b) := by
  have hev : (s.setUnread o b).events = s.events := rfl
  cases h : s.events <;> simp only [State.nextEvent, hev, h] <;> rfl

theorem blind_wkey {x : Reg} {s t : State} (h : exec (.wkey x) s = .next t) : Blind (.wkey x) s t := by
  have hout : s.nextEvent.2.outputs = s.outputs := s.nextEvent_outputs
  have hst : s.nextEvent.2.st = s.st := s.nextEvent_st
  have hexec : ∀ o b, exec (.wkey x) (s.setUnread o b) = if s.awaitingKey then
      .next (receiveEvent x (s.nextEvent.2.setUnread o b) s.nextEvent.1)
      else .next ((s.setAwaiting true).setUnread o b) := by
    intro o b
    show execWkey x _ = _
    rw [execWkey, State.nextEvent_setUnread]
    rfl
  rcases execWkey_cases x s with ⟨ha, e⟩ | ⟨ha, hev, e⟩ | ⟨ha, k, hev, e⟩ | ⟨ha, hev, e⟩ <;>
    cases h.symm.trans e
  · simp only [ha] at hexec
    exact blind_of_silent rfl rfl hexec
  · simp only [ha, hev] at hexec
    exact blind_of_silent hout hst hexec
  · simp only [ha, hev] at hexec
    exact blind_of_silent hout hst hexec
  · simp only [ha, hev] at hexec
    exact blind_of_haltWith hout hst hexec

theorem blind_drw {x y : Reg} {n : Nibble} {s t : State} (h : exec (.drw x y n) s = .next t) :
    Blind (.drw x y n) s t := by
  cases hrows : s.memReadList (dataBase s) n.toNat with
  | error f =>
    have hraise : ∀ o b, exec (.drw x y n) (s.setUnread o b) = (s.setUnread o b).raise f := fun o b => by
      have hrows' : (s.setUnread o b).memReadList (dataBase (s.setUnread o b)) n.toNat = .error f := hrows
      simp only [exec, execDrw, hrows']
    cases h.symm.trans (hraise s.outputs s.st)
    exact blind_of_haltWith rfl rfl hraise
  | ok rows =>
    have hdraw : ∀ o b, exec (.drw x y n) (s.setUnread o b) =
        match plotPixels (spritePixels (s.reg x).toNat (s.reg y).toNat 0 rows) s.fb false with
        | .error f => (s.setUnread o b).raise f
        | .ok (fb, hit) => .next ((s.setUnread o b).drawn fb hit) := fun o b => by
      have hrows' : (s.setUnread o b).memReadList (dataBase (s.setUnread o b)) n.toNat = .ok rows := hrows
      simp only [exec, execDrw, hrows']
      rfl
    cases hplot : plotPixels (spritePixels (s.reg x).toNat (s.reg y).toNat 0 rows) s.fb false with
    | error f =>
      simp only [hplot] at hdraw
      cases h.symm.trans (hdraw s.outputs s.st)
      exact blind_of_haltWith rfl rfl hdraw
    | ok p =>
      simp only [hplot] at hdraw
      cases h.symm.trans (hdraw s.outputs s.st)
      exact ⟨[.displayDraw p.1], rfl, .inl ⟨rfl, hdraw⟩⟩

/-- Every operation is blind to the outputs emitted before and to the sound timer. -/
theorem blind_of_exec {i : Instr} {s t : State} (h : exec i s = .next t) : Blind i s t := by
  cases i with
  | cls =>
    cases h
    exact ⟨[.displayClear], rfl, .inl ⟨rfl, fun _ _ => rfl⟩⟩
  | ret => exact blind_of_cases execRet_cases (by intros; omega) h
  | sys nnn =>
    cases h.symm.trans (execSys_eq nnn s)
    exact blind_of_silent rfl rfl fun o b => execSys_eq nnn (s.setUnread o b)
  | call nnn => exact blind_of_cases (execCall_cases nnn) (by intros; omega) h
  | drw x y n => exact blind_drw h
  | skp x =>
    exact blind_of_cases (execSkp_cases x) (by intros; omega) h
      (hg := fun o b hs _ => (apply_ite (State.setUnread · o b) (s.keyDown ⟨_, hs⟩ = true)
        ((s.releaseKey ⟨_, hs⟩).skipIf true) (s.skipIf false)).symm)
      (hout := fun _ => by split <;> rfl) (hst := fun _ => by split <;> rfl)
  | sknp x =>
    have hcases := execSknp_cases x
    simp only [State.skipIf_eq] at hcases
    exact blind_of_cases hcases (by intros; omega) h
  | wkey x => exact blind_wkey h
  | stst x =>
    cases h
    exact ⟨[], (List.append_nil _).symm, .inr fun o b => by rw [List.append_nil]; rfl⟩
  | bcd x =>
    have hcases := fun u => (execBcd_cases x u).imp_left exists_prop.2
    exact blind_of_cases hcases (by intros; omega) h
  | stm x =>
    have hcases := fun u => (execStm_cases x u).imp_left exists_prop.2
    exact blind_of_cases hcases (by intros; omega) h
  | ldm x =>
    have hcases := fun u => (execLdm_cases x u).imp_left exists_prop.2
    exact blind_of_cases hcases (by intros; omega) h
  | opcodeNone w =>
    cases h
    exact blind_of_haltWith rfl rfl fun _ _ => rfl
  | sei x nn | snei x nn | ser x y | sner x y =>
    cases h
    exact blind_of_skipIf fun _ _ => rfl
  | _ =>
    cases h
    exact blind_of_silent rfl rfl fun _ _ => rfl

/-- Settles O59: the sound timer is left as it is, and the outputs before are replaced. -/
theorem outputsNeverFeedBack : Obligations.OutputsNeverFeedBack := by
  intro i s t h
  obtain ⟨e, he, ⟨hst, hu⟩ | hu⟩ := blind_of_exec h
  · exact ⟨e, he, fun o => (hu o s.st).trans (by rw [← hst]; rfl)⟩
  · exact ⟨e, he, fun o => hu o s.st⟩

/-- Settles O60: the outputs before are left as they are, and the sound timer is replaced. -/
theorem soundTimerIsReadByNoInstruction : Obligations.SoundTimerIsReadByNoInstruction := by
  intro i s t b h
  obtain ⟨e, he, ⟨-, hu⟩ | hu⟩ := blind_of_exec h
  · exact ⟨_, hu s.outputs b, by rw [← he]; rfl⟩
  · exact ⟨_, hu s.outputs b, by rw [← he]; rfl⟩

end Sys2Proof.Machine
end
